-- ==== Sys2Proof/Word.lean ====
section
/-! DEFINITION. The word types of the io-samurai CSM (spec 00_scope.md R7, R10; 30_encoding.md R60). -/

namespace Sys2Proof

/-- An unsigned 8-bit value: a payload byte, a cursor value or a checksum (R7). -/
abbrev Byte := BitVec 8

/-- A command word `CW[71:0]` (R60): the opcode in bits 71:64, the argument in bits 63:0. -/
abbrev CommandWord := BitVec 72

/-- `zext_64(v)` (R10): zero extension to the width of `RDATA`. -/
abbrev zext64 {w : Nat} (v : BitVec w) : BitVec 64 := v.setWidth 64

end Sys2Proof
end

