-- ==== Sys2Proof/Config.lean ====
section
/-! DEFINITION. What one implementation fixes or the outside world decides: the types of the transport's answers,
the constants of the spec, and the free values (opaque constants, which no proof can evaluate). -/

namespace Sys2Proof

/-- The transport's answer to a send, port `SEND_KIND` (R34): 0 = OK, 1 = TransportError. -/
inductive SendOutcome where
  | ok
  | transportError
deriving DecidableEq, Repr, Inhabited

/-- The receive event the transport presents, ports `RX_KIND`, `RX_LEN`, `RX_DATA` (R34).
`RX_KIND = 3` is not a legal value and has no constructor (I6). A datagram is a byte list of any length. -/
inductive RxEvent where
  | timeout
  | transportError
  | datagram (bytes : List Byte)
deriving DecidableEq, Repr, Inhabited

namespace Config

/-- `ANALOG_FULL`, the divisor of the analog scaling: fixed by the source's formula (R9). -/
def analogFull : BitVec 16 := 4095#16

/-- `ANALOG_SCALE_RESET`, the binary64 pattern of 4095.0 (R9, R20). -/
def analogScaleReset : BitVec 64 := 0x40AFFE0000000000#64

/-- The checksum table `T` as it is supplied from outside (R8, R28, I1): a free value, one byte for each index.
The spec gives no contents and no rule depends on any. Log 1. -/
opaque table : Byte → Byte

/-- The send outcome the transport presents when no answer is listed in State (R34, I5): a free value, numbered by
the draw. Log 2. -/
opaque freeSendOutcome : Nat → SendOutcome

/-- The receive event the transport presents when no event is listed in State (R34, R144, I5): a free value,
numbered by the draw. Log 2. -/
opaque freeRxEvent : Nat → RxEvent

/-- The sign bit of a NaN result of GETANALOG (D15, I8): a free value, applied to the sample and the scale. Log 3. -/
opaque freeNanSign : BitVec 16 → BitVec 64 → Bool

/-- The fraction of a NaN result of GETANALOG, less one (a NaN's 52-bit fraction is not zero; D15, I8): a free value,
applied to the sample and the scale. Log 3. -/
opaque freeNanFraction : BitVec 16 → BitVec 64 → Fin 4503599627370495

end Config

end Sys2Proof
end

