-- ==== Sys2Proof/Syntax.lean ====
section
/-! DEFINITION. The eleven commands of the opcode map (spec 30_encoding.md R61 to R63), one constructor per row of
spec/opcode_table.json. -/

namespace Sys2Proof

/-- A command with its operands. A byte operand is an 8-bit field and `F64` a 64-bit pattern (R63); a bit index is a
number, whose field of 5 bits is checked by `Instr.wellFormed` (log 6). -/
inductive Instr where
  /-- `CKO2 p0, p1` (R82). -/
  | cko2 (p0 p1 : Byte)
  /-- `CKI4 q0, q1, q2, q3`, operands in storage order (R83). -/
  | cki4 (q0 q1 q2 q3 : Byte)
  /-- `CURRST` (R85). -/
  | currst
  /-- `SETOUT bit, v` (R101). -/
  | setout (bit : Nat) (v : Bool)
  /-- `GETOUT bit` (R102). -/
  | getout (bit : Nat)
  /-- `GETIN bit` (R103). -/
  | getin (bit : Nat)
  /-- `GETANALOG` (R107). -/
  | getanalog
  /-- `SETSCALE x`, the operand a binary64 pattern (R108). -/
  | setscale (f64 : BitVec 64)
  /-- `TXBUILD` (R132). -/
  | txbuild
  /-- `RXCHECK` (R138). -/
  | rxcheck
  /-- `UPDATE` (R140). -/
  | update
deriving DecidableEq, Repr

end Sys2Proof
end

