-- ==== Sys2Proof/Machine/State.lean ====
section
/-! DEFINITION. The state of one CSM instance (spec 10_state.md R20 to R36), its reset value (70_reset_and_hazards.md
R180), and the reasons a step could stop. -/

namespace Sys2Proof.Machine

/-- The result status of a command (R35). The reserved codes `0x8` to `0xF` are never produced and have no
constructor (I12). `invalidInput` is the code of the source's `InvalidInput`; with 8-bit bytes no command reports it
(R84). -/
inductive Status where
  | ok
  | timeout
  | malformed
  | mismatch
  | xerr
  | invalidInput
  | bitRange
  | illegalCmd
deriving DecidableEq, Repr

/-- The table space (20_memory.md R40): the entries of `T` this instance lists, as (index, byte) pairs. An index that
is not listed reads as `Config.table`. Log 1. -/
abbrev Memory := List Host.Cell

/-- Why a step could stop with a fault: never. The CSM has no traps, and every error ends its command with a result
status and the next command runs (60_exceptions.md R160). No constructor, so no fault can be raised. Log 16. -/
inductive Fault where
deriving DecidableEq, Repr

/-- Why a step could be refused. No command is. Log 16. -/
inductive Refusal where
  /-- An instruction this model gives no meaning yet; raised by an arm of `exec` alone. Safe: the step has no next
  state. No arm raises it. -/
  | notModelled (mnemonic : String)
deriving DecidableEq, Repr

/-- The state of one instance: the architectural state and `T` (R20), the result ports (R34, R36), the runner of R30
with the reset requests, and the answers of the transport (R34). -/
structure State where
  /-- `IDX_OUT`, the outbound cursor (R21). -/
  idxOut : Byte
  /-- `IDX_IN`, the inbound cursor (R22). -/
  idxIn : Byte
  /-- `OUTPUTS` (R25). -/
  outputs : BitVec 16
  /-- `INPUTS` (R26). -/
  inputs : BitVec 32
  /-- `ANALOG_SCALE`, a binary64 pattern (R27). -/
  analogScale : BitVec 64
  /-- `T`, which nothing writes (R28). Log 1. -/
  table : Memory
  /-- Port `STATUS` (R35). -/
  status : Status
  /-- Port `SENDERR` (R142). -/
  senderr : Bool
  /-- Port `RDATA`. -/
  rdata : BitVec 64
  /-- Port `TX_VALID`. -/
  txValid : Bool
  /-- Port `TX_DATA`: byte 0 in bits 7:0, the checksum in bits 23:16. -/
  txData : BitVec 24
  /-- The runner's program: the words that port `CW` is given, in order (R30). -/
  program : List CommandWord
  /-- The runner's position, an index into `program` (R30). -/
  pc : Nat
  /-- Port `RST`: the positions at which a reset is requested, oldest first (R34, R181). Log 5. -/
  resetAt : List Nat
  /-- Port `SEND_KIND`: the send outcomes the transport will present, the next one first (R34). Log 2. -/
  sendAnswers : List SendOutcome
  /-- The model's own field: how many free send outcomes have been drawn. Log 2. -/
  sendDraws : Nat
  /-- Ports `RX_KIND`, `RX_LEN`, `RX_DATA`: the receive events the transport will present, the next one first (R34).
  Log 2. -/
  rxAnswers : List RxEvent
  /-- The model's own field: how many free receive events have been drawn. Log 2. -/
  rxDraws : Nat
deriving DecidableEq, Repr

/-- The instance right after its creation by reset (R173, R180, R36), with no program, no reset request and no
transport answer listed (logs 2, 4, 5) and no entry of `T` listed (log 1). -/
def State.reset : State where
  idxOut := 0x01
  idxIn := 0x01
  outputs := 0x0000
  inputs := 0x00000000
  analogScale := Config.analogScaleReset
  table := []
  status := .ok
  senderr := false
  rdata := 0
  txValid := false
  txData := 0
  program := []
  pc := 0
  resetAt := []
  sendAnswers := []
  sendDraws := 0
  rxAnswers := []
  rxDraws := 0

end Sys2Proof.Machine
end

