-- ==== Sys2Proof/Machine/Operands.lean ====
section
/-! DEFINITION. The operand forms: single bits of the registers (spec 41_io_registers.md R100, R101), the bytes and
words of the packets (42_exchange.md R130, R131, R135), the analog sample (R105), and the port patterns of the
transport's answers (10_state.md R34). -/

namespace Sys2Proof.Machine

/-- The shared bit-range check of R100: an index at or above the register's width is rejected, never wrapped. -/
def bitOutOfRange (width bit : Nat) : Bool := decide (width ≤ bit)

/-- SETOUT's new register (R101): `OUTPUTS OR (1 << BIT)` or `OUTPUTS AND NOT (1 << BIT)`, in 16 bits. -/
def writeBit (outputs : BitVec 16) (bit : Nat) (v : Bool) : BitVec 16 :=
  if v then outputs ||| (1#16 <<< bit) else outputs &&& ~~~(1#16 <<< bit)

/-- `zext_64(REG[BIT])` (R102, R103): 0 or 1. -/
def readBit {w : Nat} (register : BitVec w) (bit : Nat) : BitVec 64 := zext64 (BitVec.ofBool (register.getLsbD bit))

/-- `OUTPUTS[7:0]`, outbound byte 0 (R130). -/
def outputsLow (outputs : BitVec 16) : Byte := outputs.extractLsb' 0 8

/-- `OUTPUTS[15:8]`, outbound byte 1 (R130); its bit 0 is the low-pass-filter flag. -/
def outputsHigh (outputs : BitVec 16) : Byte := outputs.extractLsb' 8 8

/-- The low-pass-filter flag `OUTPUTS[8]` (R25, R104). -/
def lowPassFilter (outputs : BitVec 16) : Bool := outputs.getLsbD 8

/-- The frame on port `TX_DATA`: `{ck, byte1, byte0}` (R34, R130). -/
def txFrame (b0 b1 ck : Byte) : BitVec 24 := ck ++ (b1 ++ b0)

/-- The input word of a validated packet: `{b3, b2, b1, b0}` (R135). -/
def inputWord (b0 b1 b2 b3 : Byte) : BitVec 32 := b3 ++ (b2 ++ (b1 ++ b0))

/-- `INPUTS[8k+7:8k]`, inbound byte `k` (R43). -/
def inputByte (inputs : BitVec 32) (k : Nat) : Byte := inputs.extractLsb' (8 * k) 8

/-- The digital inputs `DIN = INPUTS[15:0]` (R26). -/
def digitalInputs (inputs : BitVec 32) : BitVec 16 := inputs.extractLsb' 0 16

/-- `AnalogSample(INPUTS) = {INPUTS[31:24], INPUTS[23:16]}` (R105). -/
def analogSample (inputs : BitVec 32) : BitVec 16 := inputs.extractLsb' 24 8 ++ inputs.extractLsb' 16 8

/-- MISMATCH's result data `zext_64({expected, c})` (R133, R137). -/
def mismatchData (expected received : Byte) : BitVec 64 := zext64 (expected ++ received : BitVec 16)

/-- Port `SEND_KIND` of a send outcome (R34). -/
def sendKind : SendOutcome → BitVec 1
  | .ok => 0
  | .transportError => 1

/-- The send outcome that a value of port `SEND_KIND` stands for (R34). -/
def sendOutcomeOfKind (kind : BitVec 1) : SendOutcome := if kind = 0 then .ok else .transportError

/-- The receive ports (R34). The width `RXLEN_W` of `RX_LEN` is left open by the spec (D29); the length is unbounded
here. -/
structure RxPins where
  kind : BitVec 2
  len : Nat
  data : BitVec 40
deriving DecidableEq, Repr

/-- `RX_DATA` of a 5-byte datagram: byte `k` in bits `8k+7:8k` (R34). -/
def rxDataOfBytes (b0 b1 b2 b3 b4 : Byte) : BitVec 40 := b4 ++ (b3 ++ (b2 ++ (b1 ++ b0)))

/-- The ports as a receive event drives them (R34); where a port is ignored it is driven with zeros. -/
def rxPinsOfEvent : RxEvent → RxPins
  | .timeout => ⟨0, 0, 0⟩
  | .transportError => ⟨1, 0, 0⟩
  | .datagram [b0, b1, b2, b3, b4] => ⟨2, 5, rxDataOfBytes b0 b1 b2 b3 b4⟩
  | .datagram bytes => ⟨2, bytes.length, 0⟩

/-- The receive event that the ports present (R34): none for the illegal `RX_KIND = 3`, which is never presented (I6).
The bytes of a datagram of another length than 5 are not on the ports; zeros stand for them. -/
def rxEventOfPins (p : RxPins) : Option RxEvent :=
  if p.kind = 0 then some .timeout
  else if p.kind = 1 then some .transportError
  else if p.kind = 2 then
    some (.datagram (if p.len = 5 then (List.range 5).map (fun k => p.data.extractLsb' (8 * k) 8)
      else List.replicate p.len 0))
  else none

end Sys2Proof.Machine
end

