-- ==== Sys2Proof/Machine/Float64.lean ====
section
/-! DEFINITION. IEEE 754 binary64 with round to nearest, ties to even (spec 00_scope.md R13, D14), and the scaling
function of GETANALOG (41_io_registers.md R106, R107). Everything is computed exactly on natural numbers and rounded
once at the end of each operation. Log 9. -/

namespace Sys2Proof.Machine

/-- A binary64 datum. `fin neg sig exp` is `(-1)^neg * sig * 2^exp`; `nan` is "some NaN", its pattern left open
(I8). -/
inductive F64 where
  | nan
  | inf (neg : Bool)
  | fin (neg : Bool) (sig : Nat) (exp : Int)
deriving DecidableEq, Repr

/-- The value a 64-bit pattern encodes: sign in bit 63, exponent in bits 62:52, fraction in bits 51:0 (R13). -/
def F64.ofBits (b : BitVec 64) : F64 :=
  let neg := b.getLsbD 63
  let exponent := (b.extractLsb' 52 11).toNat
  let fraction := (b.extractLsb' 0 52).toNat
  if exponent = 2047 then (if fraction = 0 then .inf neg else .nan)
  else if exponent = 0 then .fin neg fraction (-1074)
  else .fin neg (2 ^ 52 + fraction) (exponent - 1075)

/-- `2 ^ e` for `e ≥ 0`, and 1 below. -/
def pow2 (e : Int) : Nat := 2 ^ e.toNat

/-- The integer part of the base-2 logarithm of `num / den`, both positive. -/
def floorLog2 (num den : Nat) : Int :=
  let l : Int := num.log2 - den.log2
  if den * pow2 l ≤ num * pow2 (-l) then l else l - 1

/-- The integer nearest to `num / den`, the even one where two are equally near. -/
def nearestEven (num den : Nat) : Nat :=
  let q := num / den
  let r := 2 * (num % den)
  if r < den then q else if den < r then q + 1 else q + q % 2

/-- The binary64 datum nearest to `(-1)^neg * (num / den) * 2^exp` (R13, D14): the significand is rounded to 53 bits,
to fewer where the quantum `2^(-1074)` is reached (subnormals are kept), and a result of `2^1024` or more is an
infinity. -/
def roundF64 (neg : Bool) (num den : Nat) (exp : Int) : F64 :=
  if num = 0 then .fin neg 0 (-1074)
  else
    let q := max (floorLog2 num den + exp - 52) (-1074)
    let m := nearestEven (num * pow2 (exp - q)) (den * pow2 (q - exp))
    if 971 < q ∨ (q = 971 ∧ 2 ^ 53 ≤ m) then .inf neg else .fin neg m q

/-- `u16_to_f64(v)` (R13), exact. -/
def u16ToF64 (v : BitVec 16) : F64 := roundF64 false v.toNat 1 0

/-- `fdiv64(a, b)` (R13). -/
def fdiv64 : F64 → F64 → F64
  | .nan, _ => .nan
  | .inf _, .nan => .nan
  | .inf _, .inf _ => .nan
  | .inf s, .fin t _ _ => .inf (s != t)
  | .fin _ _ _, .nan => .nan
  | .fin s _ _, .inf t => .fin (s != t) 0 (-1074)
  | .fin s m e, .fin t n f =>
    if n = 0 then (if m = 0 then .nan else .inf (s != t)) else roundF64 (s != t) m n (e - f)

/-- `fmul64(a, b)` (R13). -/
def fmul64 : F64 → F64 → F64
  | .nan, _ => .nan
  | .inf _, .nan => .nan
  | .inf s, .inf t => .inf (s != t)
  | .inf s, .fin t n _ => if n = 0 then .nan else .inf (s != t)
  | .fin _ _ _, .nan => .nan
  | .fin s m _, .inf t => if m = 0 then .nan else .inf (s != t)
  | .fin s m e, .fin t n f => roundF64 (s != t) (m * n) 1 (e + f)

/-- `bits64(x)` (R13) of a datum that `F64.ofBits` or `roundF64` answers, with the pattern `nanBits` for a NaN. The
sum of the biased exponent and the significand carries into the exponent where rounding reached `2^53`. -/
def bits64 (nanBits : BitVec 64) : F64 → BitVec 64
  | .nan => nanBits
  | .inf neg => BitVec.ofBool neg ++ (0x7FF#11 ++ 0#52)
  | .fin neg sig exp => BitVec.ofBool neg ++ BitVec.ofNat 63 ((exp + 1074).toNat * 2 ^ 52 + sig)

/-- A NaN pattern: any sign, exponent all ones, any fraction but zero. -/
def nanPattern (neg : Bool) (fractionLessOne : Fin 4503599627370495) : BitVec 64 :=
  BitVec.ofBool neg ++ (0x7FF#11 ++ BitVec.ofNat 52 (fractionLessOne.val + 1))

/-- `AnalogScale(sample, scale)` (R106): divide first, then multiply, each rounded once; no clamp (D28). -/
def analogScaleF64 (sample : BitVec 16) (scale : F64) : F64 :=
  fmul64 (u16ToF64 sample) (fdiv64 scale (u16ToF64 Config.analogFull))

/-- GETANALOG's result data (R107). A NaN result has a free NaN pattern (D15, log 3). -/
def analogResult (inputs : BitVec 32) (scale : BitVec 64) : BitVec 64 :=
  let sample := analogSample inputs
  bits64 (nanPattern (Config.freeNanSign sample scale) (Config.freeNanFraction sample scale))
    (analogScaleF64 sample (F64.ofBits scale))

end Sys2Proof.Machine
end

