-- ==== Sys2Proof/WellFormed.lean ====
section
/-! DEFINITION. Which commands an encoding exists for: the operands that fit their fields (spec 30_encoding.md R61,
R63, R68). -/

namespace Sys2Proof

/-- The `BIT` field of format B holds 0..31 (R63, R68); every other operand fits its field by its type.
An index of 16..31 is well formed for SETOUT and GETOUT, which reject it when they execute (R68). -/
def Instr.wellFormed : Instr → Bool
  | .cko2 _ _ => true
  | .cki4 _ _ _ _ => true
  | .currst => true
  | .setout bit _ => decide (bit < 32)
  | .getout bit => decide (bit < 32)
  | .getin bit => decide (bit < 32)
  | .getanalog => true
  | .setscale _ => true
  | .txbuild => true
  | .rxcheck => true
  | .update => true

end Sys2Proof
end

