-- ==== Sys2Proof/Decode.lean ====
section
/-! DEFINITION. The decoder, total on every 72-bit word (spec 30_encoding.md R64), the encoder (R69), and the opcode
table's own rows of match and mask (R62). -/

namespace Sys2Proof

/-- Why a word is no command (R66): its opcode is not in the map of R62, or a reserved-zero bit of its format is set.
Both execute alike. -/
inductive IllegalWord where
  | unassignedOpcode
  | reservedBitSet
deriving DecidableEq, Repr

/-- What a 72-bit word decodes to (R64). -/
inductive Decoded where
  | command (i : Instr)
  | illegal (why : IllegalWord)
deriving DecidableEq, Repr

/-- `OPC = CW[71:64]` (R60). -/
def opcodeOf (w : CommandWord) : Byte := w.extractLsb' 64 8

/-- `ARG = CW[63:0]` (R60). -/
def argOf (w : CommandWord) : BitVec 64 := w.extractLsb' 0 64

/-- `ARG[8k+7:8k]` (R63). -/
def argByte (arg : BitVec 64) (k : Nat) : Byte := arg.extractLsb' (8 * k) 8

/-- `BIT = ARG[4:0]` (R63). -/
def argBit (arg : BitVec 64) : Nat := (arg.extractLsb' 0 5).toNat

/-- `V = ARG[8]` (R63). -/
def argV (arg : BitVec 64) : Bool := arg.getLsbD 8

/-- Decoding one format: the command, unless one of the bits that must be zero is set (R64, R66). -/
def unlessReserved (reservedSet : Bool) (i : Instr) : Decoded :=
  if reservedSet then .illegal .reservedBitSet else .command i

/-- `decode(CW)` (R64), in the order of the rule's cases. For GETOUT and GETIN the reserved bits `ARG[63:5]` include
`V`, bit 8. -/
def decode (w : CommandWord) : Decoded :=
  let opc := opcodeOf w
  let arg := argOf w
  if opc = 0x01#8 then
    unlessReserved (arg.extractLsb' 16 48 != 0) (.cko2 (argByte arg 0) (argByte arg 1))
  else if opc = 0x02#8 then
    unlessReserved (arg.extractLsb' 32 32 != 0)
      (.cki4 (argByte arg 0) (argByte arg 1) (argByte arg 2) (argByte arg 3))
  else if opc = 0x03#8 then unlessReserved (arg != 0) .currst
  else if opc = 0x10#8 then
    unlessReserved (arg.extractLsb' 9 55 != 0 || arg.extractLsb' 5 3 != 0) (.setout (argBit arg) (argV arg))
  else if opc = 0x11#8 then unlessReserved (arg.extractLsb' 5 59 != 0) (.getout (argBit arg))
  else if opc = 0x12#8 then unlessReserved (arg.extractLsb' 5 59 != 0) (.getin (argBit arg))
  else if opc = 0x20#8 then unlessReserved (arg != 0) .getanalog
  else if opc = 0x21#8 then .command (.setscale arg)
  else if opc = 0x30#8 then unlessReserved (arg != 0) .txbuild
  else if opc = 0x31#8 then unlessReserved (arg != 0) .rxcheck
  else if opc = 0x32#8 then unlessReserved (arg != 0) .update
  else .illegal .unassignedOpcode

/-- `ARG` of format P2 (R61). -/
def argP2 (p0 p1 : Byte) : BitVec 64 := 0#48 ++ (p1 ++ p0)

/-- `ARG` of format P4 (R61). -/
def argP4 (q0 q1 q2 q3 : Byte) : BitVec 64 := 0#32 ++ (q3 ++ (q2 ++ (q1 ++ q0)))

/-- `ARG` of format B (R61): `V` in bit 8, `BIT` in bits 4:0. An index above 31 does not fit its field; its low five
bits then stand there. -/
def argB (bit : Nat) (v : Bool) : BitVec 64 := 0#55 ++ (BitVec.ofBool v ++ (0#3 ++ BitVec.ofNat 5 bit))

/-- The word of a well-formed command (R61, R62, R69): the opcode, then the argument. -/
def encode : Instr → CommandWord
  | .cko2 p0 p1 => 0x01#8 ++ argP2 p0 p1
  | .cki4 q0 q1 q2 q3 => 0x02#8 ++ argP4 q0 q1 q2 q3
  | .currst => 0x03#8 ++ 0#64
  | .setout bit v => 0x10#8 ++ argB bit v
  | .getout bit => 0x11#8 ++ argB bit false
  | .getin bit => 0x12#8 ++ argB bit false
  | .getanalog => 0x20#8 ++ 0#64
  | .setscale f64 => 0x21#8 ++ f64
  | .txbuild => 0x30#8 ++ 0#64
  | .rxcheck => 0x31#8 ++ 0#64
  | .update => 0x32#8 ++ 0#64

/-- One row of spec/opcode_table.json: a word `w` is the row's when `w` masked is `pattern`. -/
structure OpcodeRow where
  mnemonic : String
  pattern : CommandWord
  mask : CommandWord
deriving DecidableEq, Repr

/-- The word has the row's fixed bits. -/
def OpcodeRow.matches (r : OpcodeRow) (w : CommandWord) : Bool := w &&& r.mask == r.pattern

/-- The eleven rows of spec/opcode_table.json, in its order (R62). -/
def opcodeTable : List OpcodeRow :=
  [⟨"CKO2", 0x010000000000000000#72, 0xFFFFFFFFFFFFFF0000#72⟩,
   ⟨"CKI4", 0x020000000000000000#72, 0xFFFFFFFFFF00000000#72⟩,
   ⟨"CURRST", 0x030000000000000000#72, 0xFFFFFFFFFFFFFFFFFF#72⟩,
   ⟨"SETOUT", 0x100000000000000000#72, 0xFFFFFFFFFFFFFFFEE0#72⟩,
   ⟨"GETOUT", 0x110000000000000000#72, 0xFFFFFFFFFFFFFFFFE0#72⟩,
   ⟨"GETIN", 0x120000000000000000#72, 0xFFFFFFFFFFFFFFFFE0#72⟩,
   ⟨"GETANALOG", 0x200000000000000000#72, 0xFFFFFFFFFFFFFFFFFF#72⟩,
   ⟨"SETSCALE", 0x210000000000000000#72, 0xFF0000000000000000#72⟩,
   ⟨"TXBUILD", 0x300000000000000000#72, 0xFFFFFFFFFFFFFFFFFF#72⟩,
   ⟨"RXCHECK", 0x310000000000000000#72, 0xFFFFFFFFFFFFFFFFFF#72⟩,
   ⟨"UPDATE", 0x320000000000000000#72, 0xFFFFFFFFFFFFFFFFFF#72⟩]

/-- The position of a command's row in `opcodeTable`. -/
def Instr.rowIndex : Instr → Nat
  | .cko2 _ _ => 0
  | .cki4 _ _ _ _ => 1
  | .currst => 2
  | .setout _ _ => 3
  | .getout _ => 4
  | .getin _ => 5
  | .getanalog => 6
  | .setscale _ => 7
  | .txbuild => 8
  | .rxcheck => 9
  | .update => 10

/-- The command word whose bits are the low `nbits` bits of `w` and zero above, as spec/opcode_table.json numbers
them: bit 0 is bit 0 of `CW`. A word crosses the command port whole, so no byte order enters (R60; log 15). -/
def tableWord (nbits w : Nat) : CommandWord := BitVec.ofNat 72 (w % 2 ^ nbits)

/-- The command the decoder reads from a word of the opcode table, none where it refuses. -/
def decodeTableWord (nbits w : Nat) : Option Instr :=
  match decode (tableWord nbits w) with
  | .command i => some i
  | .illegal _ => none

end Sys2Proof
end

