-- ==== Sys2Proof/Machine/Flags.lean ====
section
/-! DEFINITION. The result ports, which every command computes (spec 00_scope.md R12; 10_state.md R34 to R36;
42_exchange.md R142). The block has no condition codes (R31). -/

namespace Sys2Proof.Machine

/-- The 4-bit code of a status on port `STATUS` (R35). -/
def statusCode : Status → BitVec 4
  | .ok => 0x0
  | .timeout => 0x1
  | .malformed => 0x2
  | .mismatch => 0x3
  | .xerr => 0x4
  | .invalidInput => 0x5
  | .bitRange => 0x6
  | .illegalCmd => 0x7

/-- `report(S, D)` (R12): the result status and data of a command that emits no frame and makes no send: `SENDERR`
is 0 (R142), `TX_VALID` and `TX_DATA` are 0 (R36). -/
def State.report (s : State) (st : Status) (d : BitVec 64) : State :=
  { s with status := st, rdata := d, senderr := false, txValid := false, txData := 0 }

/-- `emit_tx` (R12): the frame on the transmit port, with `TX_VALID` 1. -/
def State.emitTx (s : State) (frame : BitVec 24) : State := { s with txValid := true, txData := frame }

/-- `SENDERR` of a command that makes a send: 1 when the send outcome is TransportError (R142). -/
def State.recordSend (s : State) (outcome : SendOutcome) : State :=
  { s with senderr := outcome == .transportError }

/-- `raise BIT_RANGE(zext_64(BIT))` (R100): no state changes. -/
def State.raiseBitRange (s : State) (bit : Nat) : State := s.report .bitRange (BitVec.ofNat 64 bit)

/-- The execution of a word that decodes to no command (R66): `report(ILLEGAL_CMD, 0)`, nothing else changes and the
transport ports are not read. -/
def State.illegalCommand (s : State) : State := s.report .illegalCmd 0

end Sys2Proof.Machine
end

