-- ==== Sys2Proof/Machine/Ops.lean ====
section
/-! DEFINITION. The shared operations: the table (spec 20_memory.md R40, R41), the cursor update (40_checksum.md R80),
the outbound packet (42_exchange.md R130), the receive step (R133), the transport's answers (10_state.md R34), reset
(70_reset_and_hazards.md R180) and the runner (10_state.md R30). The CSM takes no exceptions (60_exceptions.md R160),
so there is no operation for one. -/

namespace Sys2Proof.Machine

/-! ### The table space -/

/-- What an index that no entry lists reads as: the byte supplied from outside (R8, R28). Log 1. -/
def Memory.unlisted (i : Byte) : Byte := Config.table i

/-- `T[i]`, that is `MemRead(i, 1)`: it cannot fail (R41). -/
def Memory.read (m : Memory) (i : Byte) : Byte :=
  match m with
  | [] => Memory.unlisted i
  | (a, b) :: rest => if a = i.toNat then b else Memory.read rest i

/-- The canonical form from the address `low` on: addresses rising strictly and below 256, and no entry equal to what
its index reads as unlisted. -/
def Memory.wfFrom : Nat → Memory → Bool
  | _, [] => true
  | low, (a, b) :: rest =>
    decide (low ≤ a) && decide (a < 256) && decide (b ≠ Memory.unlisted (BitVec.ofNat 8 a)) &&
      Memory.wfFrom (a + 1) rest

/-- The memory is in the one canonical form, so that equal tables are equal data. -/
def Memory.wf (m : Memory) : Bool := Memory.wfFrom 0 m

/-- One entry of `T` as the outside world supplies it when it constructs the instance (R28, R173); no command does
this. It keeps the canonical form: an entry that the unlisted index would read as is removed. -/
def Memory.supply (m : Memory) (i b : Byte) : Memory :=
  match m with
  | [] => if b = Memory.unlisted i then [] else [(i.toNat, b)]
  | (a, c) :: rest =>
    if i.toNat < a then (if b = Memory.unlisted i then (a, c) :: rest else (i.toNat, b) :: (a, c) :: rest)
    else if i.toNat = a then (if b = Memory.unlisted i then rest else (a, b) :: rest)
    else (a, c) :: Memory.supply rest i b

/-! ### The cursor update -/

/-- `raw = (sum(payload) + 1) mod 256`, the sum exact (R80). -/
def rawIndex (payload : List Byte) : Nat := ((payload.map BitVec.toNat).sum + 1) % 256

/-- `CursorNext(idx, payload)` (R80): the new cursor value and the checksum, which is read at the new value. -/
def cursorNext (t : Memory) (idx : Byte) (payload : List Byte) : Byte × Byte :=
  let idx' : Byte := BitVec.ofNat 8 ((idx.toNat + rawIndex payload) % 256)
  (idx', t.read idx')

/-- `IDX_OUT <- v`. -/
def State.setIdxOut (s : State) (v : Byte) : State := { s with idxOut := v }

/-- `IDX_IN <- v`. -/
def State.setIdxIn (s : State) (v : Byte) : State := { s with idxIn := v }

/-- `OUTPUTS <- v`. -/
def State.setOutputs (s : State) (v : BitVec 16) : State := { s with outputs := v }

/-- `INPUTS <- v`. -/
def State.setInputs (s : State) (v : BitVec 32) : State := { s with inputs := v }

/-- `ANALOG_SCALE <- v`. -/
def State.setAnalogScale (s : State) (v : BitVec 64) : State := { s with analogScale := v }

/-! ### Packets -/

/-- The outbound half of an exchange: the new `IDX_OUT` and the frame (R130, R132), both from `OUTPUTS` as it stands
when the command begins. -/
def outboundPacket (t : Memory) (idx : Byte) (outputs : BitVec 16) : Byte × BitVec 24 :=
  let b0 := outputsLow outputs
  let b1 := outputsHigh outputs
  let next := cursorNext t idx [b0, b1]
  (next.1, txFrame b0 b1 next.2)

/-- What `RxStep` returns (R133). -/
structure RxResult where
  idx : Byte
  inputs : BitVec 32
  status : Status
  data : BitVec 64
deriving DecidableEq, Repr

/-- `RxStep(idx, inp, ev)` (R133): the kind of event, then the length, then the checksum (R163). -/
def rxStep (t : Memory) (idx : Byte) (inp : BitVec 32) : RxEvent → RxResult
  | .timeout => ⟨idx, inp, .timeout, 0⟩
  | .transportError => ⟨idx, inp, .xerr, 0⟩
  | .datagram [b0, b1, b2, b3, c] =>
    let next := cursorNext t idx [b3, b2, b1, b0]
    let word := inputWord b0 b1 b2 b3
    if next.2 = c then ⟨next.1, word, .ok, zext64 word⟩ else ⟨next.1, inp, .mismatch, mismatchData next.2 c⟩
  | .datagram bytes => ⟨idx, inp, .malformed, BitVec.ofNat 64 bytes.length⟩

/-- `IDX_IN <- idx'; INPUTS <- inp'; report(st, d)` (R138, R140). -/
def State.receive (s : State) (r : RxResult) : State :=
  ((s.setIdxIn r.idx).setInputs r.inputs).report r.status r.data

/-! ### The transport's answers (log 2) -/

/-- `send_outcome()`: the outcome the transport presents, listed or free (R34). -/
def State.sendOutcome (s : State) : SendOutcome := s.sendAnswers.headD (Config.freeSendOutcome s.sendDraws)

/-- The transport after its send outcome has been read. -/
def State.consumeSend (s : State) : State :=
  { s with
    sendAnswers := s.sendAnswers.tail
    sendDraws := if s.sendAnswers.isEmpty then s.sendDraws + 1 else s.sendDraws }

/-- `rx_event()`: the receive event the transport presents, listed or free (R34, R144). -/
def State.rxEvent (s : State) : RxEvent := s.rxAnswers.headD (Config.freeRxEvent s.rxDraws)

/-- The transport after its receive event has been read. -/
def State.consumeRx (s : State) : State :=
  { s with
    rxAnswers := s.rxAnswers.tail
    rxDraws := if s.rxAnswers.isEmpty then s.rxDraws + 1 else s.rxDraws }

/-! ### Reset and the runner -/

/-- A reset is requested and not yet taken (log 5). -/
def State.resetDue (s : State) : Bool :=
  match s.resetAt with
  | [] => false
  | p :: _ => decide (p ≤ s.pc)

/-- Reset (R180): every state element and port to its reset value; the table is not touched, and neither are the
runner and the transport (log 10). The request is used up. -/
def State.takeReset (s : State) : State :=
  { s with
    idxOut := 0x01
    idxIn := 0x01
    outputs := 0x0000
    inputs := 0x00000000
    analogScale := Config.analogScaleReset
    status := .ok
    senderr := false
    rdata := 0
    txValid := false
    txData := 0
    resetAt := s.resetAt.tail }

/-- The word on port `CW`: the program's word at `pc`, none when `pc` is past the list (R30). -/
def State.currentWord (s : State) : Option CommandWord := s.program[s.pc]?

/-- The runner's position advances by exactly 1 after every command (R30). -/
def State.advance (s : State) : State := { s with pc := s.pc + 1 }

/-- The program with the word at one position replaced; a program that is too short is first filled up with all-zero
words. -/
def placeWord (w : CommandWord) : Nat → List CommandWord → List CommandWord
  | 0, [] => [w]
  | 0, _ :: rest => w :: rest
  | n + 1, [] => 0 :: placeWord w n []
  | n + 1, x :: rest => x :: placeWord w n rest

end Sys2Proof.Machine
end

