-- ==== Sys2Proof/Machine/Analog.lean ====
section
/-! DEFINITION. The analog IoRegisters commands GETANALOG and SETSCALE (spec 41_io_registers.md R105 to R108). -/

namespace Sys2Proof.Machine

/-- GETANALOG (R107): the scaled analog sample as a binary64 pattern; no state changes. -/
def execGetanalog (s : State) : Host.Outcome State Fault Refusal :=
  .next (s.report .ok (analogResult s.inputs s.analogScale))

/-- SETSCALE (R108): the pattern is stored unchanged. -/
def execSetscale (f64 : BitVec 64) (s : State) : Host.Outcome State Fault Refusal :=
  .next ((s.setAnalogScale f64).report .ok 0)

end Sys2Proof.Machine
end

