-- ==== Sys2Proof/Machine/Checksum.lean ====
section
/-! DEFINITION. The ChecksumCursor commands CKO2, CKI4 and CURRST (spec 40_checksum.md). -/

namespace Sys2Proof.Machine

/-- CKO2 (R82): the outbound cursor takes the payload `[P0, P1]`. -/
def execCko2 (p0 p1 : Byte) (s : State) : Host.Outcome State Fault Refusal :=
  let next := cursorNext s.table s.idxOut [p0, p1]
  .next ((s.setIdxOut next.1).report .ok (zext64 next.2))

/-- CKI4 (R83): the inbound cursor takes the payload `[Q3, Q2, Q1, Q0]`; `INPUTS` is not written. -/
def execCki4 (q0 q1 q2 q3 : Byte) (s : State) : Host.Outcome State Fault Refusal :=
  let next := cursorNext s.table s.idxIn [q3, q2, q1, q0]
  .next ((s.setIdxIn next.1).report .ok (zext64 next.2))

/-- CURRST (R85): both cursors to `0x01`. -/
def execCurrst (s : State) : Host.Outcome State Fault Refusal :=
  .next (((s.setIdxOut 0x01).setIdxIn 0x01).report .ok 0)

end Sys2Proof.Machine
end

