-- ==== Sys2Proof/Machine/Digital.lean ====
section
/-! DEFINITION. The digital IoRegisters commands SETOUT, GETOUT and GETIN (spec 41_io_registers.md R100 to R104). -/

namespace Sys2Proof.Machine

/-- SETOUT (R101): one bit of `OUTPUTS`; BIT_RANGE from index 16 on. -/
def execSetout (bit : Nat) (v : Bool) (s : State) : Host.Outcome State Fault Refusal :=
  if bitOutOfRange 16 bit then .next (s.raiseBitRange bit)
  else .next ((s.setOutputs (writeBit s.outputs bit v)).report .ok 0)

/-- GETOUT (R102): tests one bit of `OUTPUTS`; BIT_RANGE from index 16 on. -/
def execGetout (bit : Nat) (s : State) : Host.Outcome State Fault Refusal :=
  if bitOutOfRange 16 bit then .next (s.raiseBitRange bit)
  else .next (s.report .ok (readBit s.outputs bit))

/-- GETIN (R103): tests one bit of `INPUTS`. The check of R100 with width 32 cannot fail for a well-formed command. -/
def execGetin (bit : Nat) (s : State) : Host.Outcome State Fault Refusal :=
  if bitOutOfRange 32 bit then .next (s.raiseBitRange bit)
  else .next (s.report .ok (readBit s.inputs bit))

end Sys2Proof.Machine
end

