-- ==== Sys2Proof/Machine/Exchange.lean ====
section
/-! DEFINITION. The Session commands TXBUILD, RXCHECK and UPDATE (spec 42_exchange.md). -/

namespace Sys2Proof.Machine

/-- TXBUILD (R132): builds and emits the outbound packet; the transport ports are not read. -/
def execTxbuild (s : State) : Host.Outcome State Fault Refusal :=
  let packet := outboundPacket s.table s.idxOut s.outputs
  .next (((s.setIdxOut packet.1).report .ok (zext64 packet.2)).emitTx packet.2)

/-- RXCHECK (R138): takes one receive event and classifies it. -/
def execRxcheck (s : State) : Host.Outcome State Fault Refusal :=
  .next (s.consumeRx.receive (rxStep s.table s.idxIn s.inputs s.rxEvent))

/-- UPDATE (R140): the outbound half, the send, then the receive half whatever the send's outcome (R141). -/
def execUpdate (s : State) : Host.Outcome State Fault Refusal :=
  let packet := outboundPacket s.table s.idxOut s.outputs
  let received := rxStep s.table s.idxIn s.inputs s.rxEvent
  .next ((((s.consumeSend.consumeRx.setIdxOut packet.1).receive received).emitTx packet.2).recordSend s.sendOutcome)

end Sys2Proof.Machine
end

