-- ==== Sys2Proof/Machine/Dispatch.lean ====
section
/-! DEFINITION. The meaning of each command, one arm per constructor of `Instr` (spec 30_encoding.md R62). -/

namespace Sys2Proof.Machine

/-- One command's effect on the block; the runner's position is moved by `step`. -/
def exec (i : Instr) (s : State) : Host.Outcome State Fault Refusal :=
  match i with
  | .cko2 p0 p1 => Sys2Proof.Machine.execCko2 p0 p1 s
  | .cki4 q0 q1 q2 q3 => Sys2Proof.Machine.execCki4 q0 q1 q2 q3 s
  | .currst => Sys2Proof.Machine.execCurrst s
  | .setout bit v => Sys2Proof.Machine.execSetout bit v s
  | .getout bit => Sys2Proof.Machine.execGetout bit s
  | .getin bit => Sys2Proof.Machine.execGetin bit s
  | .getanalog => Sys2Proof.Machine.execGetanalog s
  | .setscale f64 => Sys2Proof.Machine.execSetscale f64 s
  | .txbuild => Sys2Proof.Machine.execTxbuild s
  | .rxcheck => Sys2Proof.Machine.execRxcheck s
  | .update => Sys2Proof.Machine.execUpdate s

end Sys2Proof.Machine
end

