-- ==== Sys2Proof/Machine/Step.lean ====
section
/-! DEFINITION. One step: a due reset, or the command word at the runner's position, or, with neither, nothing (spec
10_state.md R30, 60_exceptions.md R172, 70_reset_and_hazards.md R181, R189). -/

namespace Sys2Proof.Machine

/-- One step. A due reset is taken between commands and before a command requested at the same time (R181). A word
that decodes to no command reports ILLEGAL_CMD (R66). The runner's position advances by 1 after every command,
whatever its status (R30). With no word left and no reset due the block is idle and keeps all its state (R172;
log 4). -/
def step (s : State) : Host.Outcome State Fault Refusal :=
  if s.resetDue then .next s.takeReset
  else
    match s.currentWord with
    | none => .next s
    | some w =>
      match decode w with
      | .illegal _ => .next s.illegalCommand.advance
      | .command i =>
        match exec i s with
        | .next t => .next t.advance
        | .fault r => .fault r
        | .refused r => .refused r

/-- The state with a word of the opcode table placed at the runner's position and no reset due before it, so that the
next step runs exactly that word. -/
def State.withFetchWord (s : State) (nbits w : Nat) : State :=
  { s with
    program := placeWord (tableWord nbits w) s.pc s.program
    resetAt := s.resetAt.dropWhile (fun p => decide (p ≤ s.pc)) }

end Sys2Proof.Machine
end

