-- ==== Sys2Proof/Machine/Assembler.lean ====
section
/-! DEFINITION. The assembler of spec 30_encoding.md R69 to R71: the operand ranges it refuses, the pseudo-instructions
LPFON and LPFOFF, the decimal literals of SETSCALE, and the text of one line. Log 13. -/

namespace Sys2Proof.Machine

/-- The operand of SETSCALE (R69): the 64 bits themselves, or the decimal literal `(-1)^neg * digits * 10^exp10`. -/
inductive ScaleOperand where
  | pattern (bits : BitVec 64)
  | decimal (neg : Bool) (digits : Nat) (exp10 : Int)
deriving DecidableEq, Repr

/-- One assembler line (R69, R71), its integer operands not yet checked against their fields. -/
inductive AsmLine where
  | cko2 (p0 p1 : Nat)
  | cki4 (q0 q1 q2 q3 : Nat)
  | currst
  | setout (bit v : Nat)
  | getout (bit : Nat)
  | getin (bit : Nat)
  | getanalog
  | setscale (x : ScaleOperand)
  | txbuild
  | rxcheck
  | update
  | lpfon
  | lpfoff
deriving DecidableEq, Repr

/-- A byte operand, refused outside 0..255 (R70). -/
def asmByte (n : Nat) : Option Byte := if n ≤ 255 then some (BitVec.ofNat 8 n) else none

/-- A `bit` operand, refused outside 0..31; 16..31 assembles for SETOUT and GETOUT too (R70, R68). -/
def asmBit (n : Nat) : Option Nat := if n ≤ 31 then some n else none

/-- A `v` operand, refused unless it is 0 or 1 (R70). -/
def asmV (n : Nat) : Option Bool := if n = 0 then some false else if n = 1 then some true else none

/-- The pattern of the binary64 value nearest to a decimal literal, ties to even (R69). -/
def decimalBits (neg : Bool) (digits : Nat) (exp10 : Int) : BitVec 64 :=
  bits64 0 (roundF64 neg (digits * 10 ^ exp10.toNat) (10 ^ (-exp10).toNat) 0)

/-- The bits that SETSCALE's operand stands for (R69). -/
def scaleBits : ScaleOperand → BitVec 64
  | .pattern bits => bits
  | .decimal neg digits exp10 => decimalBits neg digits exp10

/-- The command of a line, none where the assembler refuses an operand (R69, R70) ; LPFON and LPFOFF are SETOUT
(R71). -/
def assemble : AsmLine → Option Instr
  | .cko2 p0 p1 => do return .cko2 (← asmByte p0) (← asmByte p1)
  | .cki4 q0 q1 q2 q3 => do return .cki4 (← asmByte q0) (← asmByte q1) (← asmByte q2) (← asmByte q3)
  | .currst => some .currst
  | .setout bit v => do return .setout (← asmBit bit) (← asmV v)
  | .getout bit => do return .getout (← asmBit bit)
  | .getin bit => do return .getin (← asmBit bit)
  | .getanalog => some .getanalog
  | .setscale x => some (.setscale (scaleBits x))
  | .txbuild => some .txbuild
  | .rxcheck => some .rxcheck
  | .update => some .update
  | .lpfon => some (.setout 8 true)
  | .lpfoff => some (.setout 8 false)

/-- The word of a line (R69). -/
def assembleWord (line : AsmLine) : Option CommandWord := (assemble line).map encode

/-! ### The text of a line -/

/-- Blanks between tokens: space and tab. -/
def isBlank (c : Char) : Bool := c == ' ' || c == '\t'

/-- A text without the blanks at its two ends. -/
def trimBlanks (l : List Char) : List Char := ((l.dropWhile isBlank).reverse.dropWhile isBlank).reverse

/-- The part of a line before its comment, which runs from `;` to the end of the line (R69). -/
def dropComment (l : List Char) : List Char := l.takeWhile (fun c => c != ';')

/-- The pieces of a text between separators. -/
def splitPieces (separator : Char) : List Char → List (List Char)
  | [] => [[]]
  | c :: rest =>
    if c == separator then [] :: splitPieces separator rest
    else
      match splitPieces separator rest with
      | [] => [[c]]
      | piece :: pieces => (c :: piece) :: pieces

/-- A decimal digit's value. -/
def decimalDigit (c : Char) : Option Nat :=
  if 48 ≤ c.toNat ∧ c.toNat ≤ 57 then some (c.toNat - 48) else none

/-- A hexadecimal digit's value, either case. -/
def hexDigit (c : Char) : Option Nat :=
  if 48 ≤ c.toNat ∧ c.toNat ≤ 57 then some (c.toNat - 48)
  else if 65 ≤ c.toNat ∧ c.toNat ≤ 70 then some (c.toNat - 55)
  else if 97 ≤ c.toNat ∧ c.toNat ≤ 102 then some (c.toNat - 87)
  else none

/-- The number that the digits `l` continue from `acc`, none if a character is no digit. -/
def numberFrom (digit : Char → Option Nat) (base : Nat) : Nat → List Char → Option Nat
  | acc, [] => some acc
  | acc, c :: rest =>
    match digit c with
    | none => none
    | some d => numberFrom digit base (acc * base + d) rest

/-- A number of one or more digits. -/
def parseDigits (digit : Char → Option Nat) (base : Nat) (l : List Char) : Option Nat :=
  if l.isEmpty then none else numberFrom digit base 0 l

/-- An integer operand, decimal or `0x` hexadecimal (R69). -/
def parseInteger : List Char → Option Nat
  | '0' :: 'x' :: hex => parseDigits hexDigit 16 hex
  | l => parseDigits decimalDigit 10 l

/-- The exponent part of a decimal literal: nothing, or `e` or `E`, a sign or none, and digits. -/
def parseExponent : List Char → Option Int
  | [] => some 0
  | 'e' :: '-' :: l => (parseDigits decimalDigit 10 l).map (fun n => -(n : Int))
  | 'E' :: '-' :: l => (parseDigits decimalDigit 10 l).map (fun n => -(n : Int))
  | 'e' :: '+' :: l => (parseDigits decimalDigit 10 l).map (fun n => (n : Int))
  | 'E' :: '+' :: l => (parseDigits decimalDigit 10 l).map (fun n => (n : Int))
  | 'e' :: l => (parseDigits decimalDigit 10 l).map (fun n => (n : Int))
  | 'E' :: l => (parseDigits decimalDigit 10 l).map (fun n => (n : Int))
  | _ => none

/-- A character of a literal's mantissa: a decimal digit. -/
def isDecimal (c : Char) : Bool := (decimalDigit c).isSome

/-- An unsigned decimal literal: digits, optionally a point and digits, optionally an exponent. -/
def parseUnsignedDecimal (neg : Bool) (l : List Char) : Option ScaleOperand := do
  let whole := l.takeWhile isDecimal
  let rest := l.dropWhile isDecimal
  let fraction := if rest.head? = some '.' then rest.tail.takeWhile isDecimal else []
  let rest := if rest.head? = some '.' then rest.tail.dropWhile isDecimal else rest
  let digits ← parseDigits decimalDigit 10 (whole ++ fraction)
  let exponent ← parseExponent rest
  return .decimal neg digits (exponent - fraction.length)

/-- SETSCALE's operand (R69): `0x` and exactly 16 hexadecimal digits, or a decimal literal. -/
def parseScale : List Char → Option ScaleOperand
  | '0' :: 'x' :: hex =>
    if hex.length = 16 then (parseDigits hexDigit 16 hex).map (fun n => .pattern (BitVec.ofNat 64 n)) else none
  | '-' :: l => parseUnsignedDecimal true l
  | l => parseUnsignedDecimal false l

/-- The line that a mnemonic and its operands' texts stand for (R69, R71), none if no syntax fits. -/
def parseCommand (mnemonic : List Char) (operands : List (List Char)) : Option AsmLine :=
  match mnemonic, operands with
  | ['C', 'K', 'O', '2'], [p0, p1] => do return .cko2 (← parseInteger p0) (← parseInteger p1)
  | ['C', 'K', 'I', '4'], [q0, q1, q2, q3] => do
    return .cki4 (← parseInteger q0) (← parseInteger q1) (← parseInteger q2) (← parseInteger q3)
  | ['C', 'U', 'R', 'R', 'S', 'T'], [] => some .currst
  | ['S', 'E', 'T', 'O', 'U', 'T'], [bit, v] => do return .setout (← parseInteger bit) (← parseInteger v)
  | ['G', 'E', 'T', 'O', 'U', 'T'], [bit] => do return .getout (← parseInteger bit)
  | ['G', 'E', 'T', 'I', 'N'], [bit] => do return .getin (← parseInteger bit)
  | ['G', 'E', 'T', 'A', 'N', 'A', 'L', 'O', 'G'], [] => some .getanalog
  | ['S', 'E', 'T', 'S', 'C', 'A', 'L', 'E'], [x] => do return .setscale (← parseScale x)
  | ['T', 'X', 'B', 'U', 'I', 'L', 'D'], [] => some .txbuild
  | ['R', 'X', 'C', 'H', 'E', 'C', 'K'], [] => some .rxcheck
  | ['U', 'P', 'D', 'A', 'T', 'E'], [] => some .update
  | ['L', 'P', 'F', 'O', 'N'], [] => some .lpfon
  | ['L', 'P', 'F', 'O', 'F', 'F'], [] => some .lpfoff
  | _, _ => none

/-- What one line of text is: no command (blank or only a comment), a command, or not of the syntax. -/
inductive ParsedLine where
  | blank
  | line (l : AsmLine)
  | invalid
deriving DecidableEq, Repr

/-- One line of assembler text (R69): a mnemonic, blanks, operands separated by commas, a comment. -/
def parseLine (text : List Char) : ParsedLine :=
  let body := trimBlanks (dropComment text)
  let mnemonic := body.takeWhile (fun c => !isBlank c)
  let operandText := trimBlanks (body.dropWhile (fun c => !isBlank c))
  let operands := if operandText.isEmpty then [] else (splitPieces ',' operandText).map trimBlanks
  if body.isEmpty then .blank
  else
    match parseCommand mnemonic operands with
    | none => .invalid
    | some l => .line l

/-- The word that one line of text assembles to, none where the line holds no command or is refused. -/
def assembleText (text : List Char) : Option CommandWord :=
  match parseLine text with
  | .line l => assembleWord l
  | .blank => none
  | .invalid => none

/-- The words of a program's lines, in order, lines without a command left out; none where the assembler refuses a
line. -/
def assembleLines : List (List Char) → Option (List CommandWord)
  | [] => some []
  | text :: rest =>
    match parseLine text with
    | .blank => assembleLines rest
    | .invalid => none
    | .line l =>
      match assembleWord l, assembleLines rest with
      | some w, some ws => some (w :: ws)
      | _, _ => none

/-- The program that a text assembles to, one command per line (R69, R30). -/
def assembleProgram (text : List Char) : Option (List CommandWord) := assembleLines (splitPieces '\n' text)

end Sys2Proof.Machine
end

