-- ==== Sys2Proof/Machine/Peer.lean ====
section
/-! DEFINITION. The spec's reference peer (42_exchange.md R145, D31): a test fixture that runs the cursor update on
mirrored cursors. It is NOT the remote device, of which no source says more (N3). Log 14. -/

namespace Sys2Proof.Machine

/-- The reference peer: its two cursors and its table. -/
structure Peer where
  devTx : Byte
  devRx : Byte
  table : Memory
deriving DecidableEq, Repr

/-- The peer's cursor update for the input word `x`: the new `DEV_TX` and the checksum, the payload most significant
byte first (R145). -/
def Peer.nextTx (p : Peer) (x : BitVec 32) : Byte × Byte :=
  cursorNext p.table p.devTx [inputByte x 3, inputByte x 2, inputByte x 1, inputByte x 0]

/-- The peer after it has sent the input word `x`. -/
def Peer.afterAnswer (p : Peer) (x : BitVec 32) : Peer := { p with devTx := (p.nextTx x).1 }

/-- The 5-byte datagram with which the peer answers an exchange with the input word `x` (R145). -/
def Peer.answer (p : Peer) (x : BitVec 32) : RxEvent :=
  .datagram [inputByte x 0, inputByte x 1, inputByte x 2, inputByte x 3, (p.nextTx x).2]

/-- The peer after it has sent the input words of a list, in order. -/
def Peer.afterAnswers (p : Peer) (xs : List (BitVec 32)) : Peer := xs.foldl Peer.afterAnswer p

/-- The datagrams with which the peer answers, one for each input word, in order. -/
def Peer.answers : Peer → List (BitVec 32) → List RxEvent
  | _, [] => []
  | p, x :: xs => p.answer x :: (p.afterAnswer x).answers xs

/-- The peer's cursor update for an outbound packet whose first two bytes are `b0` and `b1` (R145). -/
def Peer.nextRx (p : Peer) (b0 b1 : Byte) : Byte × Byte := cursorNext p.table p.devRx [b0, b1]

/-- The peer after it has received an outbound packet. -/
def Peer.afterPacket (p : Peer) (b0 b1 : Byte) : Peer := { p with devRx := (p.nextRx b0 b1).1 }

end Sys2Proof.Machine
end

