-- ==== Sys2Proof/Safety.lean ====
section
/-! DEFINITION. What the claims about whole runs are stated in: the invariant that every step keeps, agreement of two
states on the architectural state, and lockstep with the reference peer. -/

namespace Sys2Proof.Machine

/-- The invariant of the machine: the table is canonical, the runner's position lies in its program, and the result
ports agree with the status and the state that the last command left (10_state.md R35, R36; 60_exceptions.md R161;
40_checksum.md R84). -/
structure State.Inv (s : State) : Prop where
  /-- Equal tables are equal data. -/
  table_wf : s.table.wf = true
  /-- The runner stops at the end of its list (R30). -/
  pc_le : s.pc ≤ s.program.length
  /-- A command that emits no frame drives `TX_DATA` = 0 (R36). -/
  no_frame : s.txValid = false → s.txData = 0
  /-- An emitted frame carries `OUTPUTS` and the checksum at the outbound cursor (R130). -/
  frame : s.txValid = true → s.txData = s.table.read s.idxOut ++ s.outputs
  /-- Only a command that emits a frame makes a send (R142). -/
  send : s.senderr = true → s.txValid = true
  /-- INVALID_INPUT is never produced (R84). -/
  bytes_in_range : s.status ≠ .invalidInput
  /-- RDATA of TIMEOUT and XERR is 0 (R161). -/
  no_datagram : s.status = .timeout ∨ s.status = .xerr → s.rdata = 0
  /-- RDATA of MISMATCH is the checksum at the inbound cursor and a different received byte (R137). -/
  mismatch : s.status = .mismatch →
    ∃ received : Byte, received ≠ s.table.read s.idxIn ∧ s.rdata = mismatchData (s.table.read s.idxIn) received
  /-- BIT_RANGE reports an index of 16 to 31 (R161) and emits no frame. -/
  bit_range : s.status = .bitRange → (∃ bit, 16 ≤ bit ∧ bit < 32 ∧ s.rdata = BitVec.ofNat 64 bit) ∧ s.txValid = false
  /-- ILLEGAL_CMD reports 0 and emits no frame (R66). -/
  illegal : s.status = .illegalCmd → s.rdata = 0 ∧ s.txValid = false

/-- The two states have the same architectural state: the five elements of R20 and `T`. -/
structure State.SameArch (s t : State) : Prop where
  idxOut : t.idxOut = s.idxOut
  idxIn : t.idxIn = s.idxIn
  outputs : t.outputs = s.outputs
  inputs : t.inputs = s.inputs
  analogScale : t.analogScale = s.analogScale
  table : t.table = s.table

/-- The inbound pair is in step: the reference peer uses the same table and its transmit cursor equals `IDX_IN`
(R145). -/
def State.InboundInStep (s : State) (p : Peer) : Prop :=
  (∀ i, p.table.read i = s.table.read i) ∧ p.devTx = s.idxIn

/-- The outbound pair is in step: the reference peer uses the same table and its receive cursor equals `IDX_OUT`
(R145). -/
def State.OutboundInStep (s : State) (p : Peer) : Prop :=
  (∀ i, p.table.read i = s.table.read i) ∧ p.devRx = s.idxOut

/-- `n` steps lead from one state to the other, every one of them answering a next state. -/
def runsTo : Nat → State → State → Prop
  | 0, s, t => t = s
  | n + 1, s, t => ∃ u, step s = .next u ∧ runsTo n u t

/-- The word at the runner's position, `k` words on, decodes to the command. -/
def State.commandAt (s : State) (k : Nat) (i : Instr) : Prop :=
  ∃ w, s.program[s.pc + k]? = some w ∧ decode w = .command i

/-- The cursor values and checksums of a sequence of updates with the payloads of a list (40_checksum.md R87). -/
def cursorRun (t : Memory) (c : Byte) : List (List Byte) → List (Byte × Byte)
  | [] => []
  | p :: ps => cursorNext t c p :: cursorRun t (cursorNext t c p).1 ps

/-- The exact sum of a payload's bytes (R10). -/
def payloadSum (payload : List Byte) : Nat := (payload.map BitVec.toNat).sum

/-! ### Correct rounding (00_scope.md R13) -/

/-- The datum is a finite number. -/
def F64.isFinite : F64 → Bool
  | .nan => false
  | .inf _ => false
  | .fin _ _ _ => true

/-- The exact value of a finite datum, and 0 of any other. -/
def F64.value : F64 → ℚ
  | .nan => 0
  | .inf _ => 0
  | .fin neg sig exp => (if neg then -1 else 1) * (sig : ℚ) * (2 : ℚ) ^ exp

/-- The datum's significand is even. -/
def F64.sigEven : F64 → Prop
  | .nan => False
  | .inf _ => False
  | .fin _ sig _ => sig % 2 = 0

/-- The pattern is the exact value `v` rounded to binary64, to nearest, ties to even: an infinity of `v`'s sign from
half a unit above the largest finite number on, and otherwise a finite pattern that no finite pattern is nearer than,
with an even significand where one of another value is equally near. -/
def RoundsTo (v : ℚ) (bits : BitVec 64) : Prop :=
  (2 ^ 1024 - 2 ^ 970 ≤ |v| → F64.ofBits bits = .inf (decide (v < 0))) ∧
  (|v| < 2 ^ 1024 - 2 ^ 970 →
    (F64.ofBits bits).isFinite = true ∧
    ∀ c : BitVec 64, (F64.ofBits c).isFinite = true →
      |(F64.ofBits bits).value - v| ≤ |(F64.ofBits c).value - v| ∧
      (|(F64.ofBits bits).value - v| = |(F64.ofBits c).value - v| → (F64.ofBits c).value ≠ (F64.ofBits bits).value →
        (F64.ofBits bits).sigEven))

end Sys2Proof.Machine
end

