-- ==== Sys2Proof/Certificates/Slice0/Obligations.lean ====
section
/-! DEFINITION. The statements about the model that the provers are asked for. Each docstring names the rules of spec/
that its statement formalises. "Log <n>" is notes/assumptions/<n>.md. -/

open Sys2Proof Sys2Proof.Machine

/-! ### Encoding (30_encoding.md) -/

/-- R72: the worked encodings, read as words, are the commands they are listed for, and GETOUT with `V = 1` is
illegal. The words are written out from the rule's table. -/
def Obligations.WorkedEncodingsDecode : Prop :=
  decode 0x010000000000001234#72 = .command (.cko2 0x34 0x12) ∧
  decode 0x020000000012345678#72 = .command (.cki4 0x78 0x56 0x34 0x12) ∧
  decode 0x030000000000000000#72 = .command .currst ∧
  decode 0x100000000000000103#72 = .command (.setout 3 true) ∧
  decode 0x10000000000000000F#72 = .command (.setout 15 false) ∧
  decode 0x100000000000000110#72 = .command (.setout 16 true) ∧
  decode 0x110000000000000008#72 = .command (.getout 8) ∧
  decode 0x12000000000000001F#72 = .command (.getin 31) ∧
  decode 0x200000000000000000#72 = .command .getanalog ∧
  decode 0x2140AFFE0000000000#72 = .command (.setscale 0x40AFFE0000000000) ∧
  decode 0x21408F400000000000#72 = .command (.setscale 0x408F400000000000) ∧
  decode 0x300000000000000000#72 = .command .txbuild ∧
  decode 0x310000000000000000#72 = .command .rxcheck ∧
  decode 0x320000000000000000#72 = .command .update ∧
  decode 0x110000000000000108#72 = .illegal .reservedBitSet

/-- R63, R64, R69: decoding the word of a well-formed command gives the command back, every operand at every value its
field admits. -/
def Obligations.DecodingAnEncodedCommandGivesItBack : Prop :=
  ∀ i : Instr, i.wellFormed = true → decode (encode i) = .command i

/-- R61, R64: a word that decodes to a command is the one word of that command, and the command is well formed; so no
two words decode to the same command. -/
def Obligations.EncodingADecodedWordGivesItBack : Prop :=
  ∀ (w : CommandWord) (i : Instr), decode w = .command i → i.wellFormed = true ∧ encode i = w

/-- R62, R66, R67 with the match and mask columns of spec/opcode_table.json: a word is illegal exactly when it matches
no row of the table. -/
def Obligations.IllegalWordsAreThoseThatMatchNoRow : Prop :=
  ∀ w : CommandWord, (∃ why, decode w = .illegal why) ↔ ∀ r ∈ opcodeTable, r.matches w = false

/-- R69, R61, R62: the words of the assembler's lines with operands in range, as numbers computed from the fields'
places. -/
def Obligations.AssembledWordsHaveTheirFields : Prop :=
  (∀ p0 p1, p0 ≤ 255 → p1 ≤ 255 →
    assembleWord (.cko2 p0 p1) = some (BitVec.ofNat 72 (0x01 * 2 ^ 64 + p1 * 2 ^ 8 + p0))) ∧
  (∀ q0 q1 q2 q3, q0 ≤ 255 → q1 ≤ 255 → q2 ≤ 255 → q3 ≤ 255 →
    assembleWord (.cki4 q0 q1 q2 q3) =
      some (BitVec.ofNat 72 (0x02 * 2 ^ 64 + q3 * 2 ^ 24 + q2 * 2 ^ 16 + q1 * 2 ^ 8 + q0))) ∧
  assembleWord .currst = some (BitVec.ofNat 72 (0x03 * 2 ^ 64)) ∧
  (∀ bit v, bit ≤ 31 → v ≤ 1 →
    assembleWord (.setout bit v) = some (BitVec.ofNat 72 (0x10 * 2 ^ 64 + v * 2 ^ 8 + bit))) ∧
  (∀ bit, bit ≤ 31 → assembleWord (.getout bit) = some (BitVec.ofNat 72 (0x11 * 2 ^ 64 + bit))) ∧
  (∀ bit, bit ≤ 31 → assembleWord (.getin bit) = some (BitVec.ofNat 72 (0x12 * 2 ^ 64 + bit))) ∧
  assembleWord .getanalog = some (BitVec.ofNat 72 (0x20 * 2 ^ 64)) ∧
  (∀ x : BitVec 64,
    assembleWord (.setscale (.pattern x)) = some (BitVec.ofNat 72 (0x21 * 2 ^ 64 + x.toNat))) ∧
  assembleWord .txbuild = some (BitVec.ofNat 72 (0x30 * 2 ^ 64)) ∧
  assembleWord .rxcheck = some (BitVec.ofNat 72 (0x31 * 2 ^ 64)) ∧
  assembleWord .update = some (BitVec.ofNat 72 (0x32 * 2 ^ 64))

/-- R70: the assembler refuses a byte operand outside 0..255, a bit outside 0..31 and a `v` other than 0 or 1, and
refuses nothing else of these lines. -/
def Obligations.AssemblerRefusesOperandsOutsideTheirFields : Prop :=
  (∀ p0 p1, assembleWord (.cko2 p0 p1) = none ↔ 255 < p0 ∨ 255 < p1) ∧
  (∀ q0 q1 q2 q3,
    assembleWord (.cki4 q0 q1 q2 q3) = none ↔ 255 < q0 ∨ 255 < q1 ∨ 255 < q2 ∨ 255 < q3) ∧
  (∀ bit v, assembleWord (.setout bit v) = none ↔ 31 < bit ∨ 1 < v) ∧
  (∀ bit, assembleWord (.getout bit) = none ↔ 31 < bit) ∧
  (∀ bit, assembleWord (.getin bit) = none ↔ 31 < bit)

/-- R69 (decimal literals of SETSCALE), R13: SETSCALE with a decimal literal assembles to SETSCALE's opcode followed by
the binary64 pattern nearest to the literal's value, ties to even. Its sign bit is the literal's minus sign, also where
the pattern is a zero; that is the model's choice for a zero (log 13). -/
def Obligations.DecimalLiteralsAreCorrectlyRounded : Prop :=
  ∀ (neg : Bool) (digits : Nat) (exp10 : Int), ∃ b : BitVec 64,
    assembleWord (.setscale (.decimal neg digits exp10)) = some (0x21#8 ++ b) ∧
    RoundsTo ((if neg then -1 else 1) * (digits : ℚ) * (10 : ℚ) ^ exp10) b ∧ b.getLsbD 63 = neg

/-- R71: LPFON is `SETOUT 8, 1` with the word `0x10_0000000000000108`, LPFOFF is `SETOUT 8, 0` with the word
`0x10_0000000000000008`; they have no opcode of their own. -/
def Obligations.LowPassPseudoInstructionsAreSetout : Prop :=
  assemble .lpfon = some (.setout 8 true) ∧ assembleWord .lpfon = some 0x100000000000000108#72 ∧
  assemble .lpfoff = some (.setout 8 false) ∧ assembleWord .lpfoff = some 0x100000000000000008#72

/-! ### The step and the runner (10_state.md R30; 70_reset_and_hazards.md) -/

/-- R30: when no reset is due and the word at the runner's position decodes to a command, the step is that command's
`exec`, and the position advances by 1. -/
def Obligations.StepRunsTheDecodedCommand : Prop :=
  ∀ (s : State) (w : CommandWord) (i : Instr), s.resetDue = false → s.program[s.pc]? = some w →
    decode w = .command i →
    step s = match exec i s with
      | .next t => .next { t with pc := t.pc + 1 }
      | .fault r => .fault r
      | .refused r => .refused r

/-- R66: a word that decodes to no command reports ILLEGAL_CMD with result data 0, `SENDERR` and `TX_VALID` 0, and
changes no state element and reads no transport port; the runner goes on to the next word. The all-zero word is
illegal. -/
def Obligations.IllegalWordOnlyReports : Prop :=
  (∀ (s : State) (w : CommandWord) (why : IllegalWord), s.resetDue = false → s.program[s.pc]? = some w →
    decode w = .illegal why →
    step s = .next
      { s with
        status := .illegalCmd
        rdata := 0
        senderr := false
        txValid := false
        txData := 0
        pc := s.pc + 1 }) ∧
  (∃ why, decode 0 = .illegal why)

/-- R30: with a word at the runner's position and no reset due, the step answers a state whose position is exactly one
further, whatever the command's status, with the same program. -/
def Obligations.RunnerAdvancesByOneAfterEveryCommand : Prop :=
  ∀ s : State, s.resetDue = false → s.pc < s.program.length →
    ∃ t, step s = .next t ∧ t.pc = s.pc + 1 ∧ t.program = s.program ∧ t.resetAt = s.resetAt

/-- R172, R30: with no word left and no reset due, the step keeps all state. That such a step answers the same state,
and not a stop, is the model's choice (log 4). -/
def Obligations.IdleBlockKeepsAllItsState : Prop :=
  ∀ s : State, s.resetDue = false → s.program.length ≤ s.pc → step s = .next s

/-- R190: every step answers a next state; no command stops the machine or hangs. -/
def Obligations.EveryStepAnswersANextState : Prop :=
  ∀ s : State, ∃ t, step s = .next t

/-- R30, R190: from any position of the runner, with no reset requested, the rest of the program ends after as many
steps as it has words, and every later step keeps the state reached. -/
def Obligations.ProgramOfManyCommandsEndsAfterAsManySteps : Prop :=
  ∀ s : State, s.resetAt = [] → s.pc ≤ s.program.length →
    ∃ t, runsTo (s.program.length - s.pc) s t ∧ t.pc = s.program.length ∧ t.program = s.program ∧
      ∀ k, runsTo k t t

/-- R180: a due reset sets every state element and every port to its reset value, in one step, and does not touch the
table. -/
def Obligations.ResetSetsEveryElement : Prop :=
  ∀ s : State, s.resetDue = true → ∃ t, step s = .next t ∧
    t.idxOut = 0x01 ∧ t.idxIn = 0x01 ∧ t.outputs = 0x0000 ∧ t.inputs = 0x00000000 ∧
    t.analogScale = 0x40AFFE0000000000 ∧ t.status = .ok ∧ t.senderr = false ∧ t.rdata = 0 ∧ t.txValid = false ∧
    t.txData = 0 ∧ t.table = s.table

/-- Reset leaves the runner's program and position and the transport's answers alone, and uses up its request. The
spec says nothing of these; they are the model's choice (logs 5 and 10). -/
def Obligations.ResetLeavesTheRunnerAndTheTransportAlone : Prop :=
  ∀ s t : State, s.resetDue = true → step s = .next t →
    t.program = s.program ∧ t.pc = s.pc ∧ s.resetAt = s.resetAt.head?.toList ++ t.resetAt ∧
    t.sendAnswers = s.sendAnswers ∧ t.sendDraws = s.sendDraws ∧ t.rxAnswers = s.rxAnswers ∧ t.rxDraws = s.rxDraws ∧
    t.resetAt.length < s.resetAt.length

/-- R180, R36, R173: the state after the creation of an instance. -/
def Obligations.StateAfterReset : Prop :=
  State.reset.idxOut = 0x01 ∧ State.reset.idxIn = 0x01 ∧ State.reset.outputs = 0x0000 ∧
  State.reset.inputs = 0x00000000 ∧ State.reset.analogScale = 0x40AFFE0000000000 ∧ State.reset.status = .ok ∧
  State.reset.senderr = false ∧ State.reset.rdata = 0 ∧ State.reset.txValid = false ∧ State.reset.txData = 0

/-- R181: a reset and a command requested at the same time are taken reset first, each wholly. Two steps run them
both. That a reset is a step of its own is the model's choice (log 5). -/
def Obligations.ResetIsTakenBeforeASimultaneousCommand : Prop :=
  ∀ (s t : State) (w : CommandWord) (i : Instr) (p : Nat), s.resetAt = [p] → p ≤ s.pc →
    s.program[s.pc]? = some w → decode w = .command i → exec i s.takeReset = .next t →
    step s = .next s.takeReset ∧ runsTo 2 s { t with pc := t.pc + 1 }

/-- A word placed by `withFetchWord` is the word that the next step runs, from every state; nothing but the program and
the due reset requests changes (log 4). -/
def Obligations.PlacedWordIsRunNext : Prop :=
  ∀ (s : State) (nbits w : Nat) (i : Instr), decodeTableWord nbits w = some i →
    s.withFetchWord nbits w =
      { s with
        program := (s.withFetchWord nbits w).program
        resetAt := (s.withFetchWord nbits w).resetAt } ∧
    ∀ t, exec i (s.withFetchWord nbits w) = .next t →
      step (s.withFetchWord nbits w) = .next { t with pc := t.pc + 1 }

/-! ### Invariants -/

/-- The state after reset meets the machine's invariant. -/
def Obligations.ResetMeetsTheInvariant : Prop := State.reset.Inv

/-- Every step keeps the machine's invariant, from every state that meets it: the table is canonical, the position lies
in the program, the transmit port agrees with OUTPUTS and the outbound cursor (R130, R36), SENDERR comes with a frame
(R142), INVALID_INPUT is never produced (R84), and RDATA agrees with the error status (R161, R137). -/
def Obligations.EveryStepKeepsTheInvariant : Prop :=
  ∀ s t : State, s.Inv → step s = .next t → t.Inv

/-- R28, R41: no command and no reset writes the table. -/
def Obligations.TableIsNeverWritten : Prop :=
  ∀ s t : State, step s = .next t → t.table = s.table

/-- R8, R40: every table of 256 bytes is the contents of exactly one memory in canonical form. The form is the model's
(log 1). -/
def Obligations.EveryTableHasOneCanonicalMemory : Prop :=
  ∀ f : Byte → Byte, ∃ m : Memory, (m.wf = true ∧ ∀ i, m.read i = f i) ∧
    ∀ m' : Memory, m'.wf = true → (∀ i, m'.read i = f i) → m' = m

/-! ### The cursor update (40_checksum.md) -/

/-- R81, derived from R80: the laws (a) to (f) of the cursor update. -/
def Obligations.CursorUpdateLaws : Prop :=
  ∀ (t : Memory) (idx : Byte) (p : List Byte),
    (cursorNext t idx p).1.toNat = (idx.toNat + (payloadSum p + 1) % 256) % 256 ∧
    (cursorNext t idx p).2 = t.read (cursorNext t idx p).1 ∧
    (∀ p' : List Byte, p.Perm p' → cursorNext t idx p' = cursorNext t idx p) ∧
    (payloadSum p % 256 = 255 → cursorNext t idx p = (idx, t.read idx)) ∧
    (cursorNext t idx p).1 = idx + BitVec.ofNat 8 (payloadSum p + 1) ∧
    (p.foldl (fun acc b => (acc + b.toNat) % 256) 0 + 1) % 256 = (payloadSum p + 1) % 256

/-- R87, derived: after `k + 1` updates from `c` the cursor is `c` plus the sum of the payloads' sums each plus one,
modulo 256, and the checksum is the table's entry there; after `n` all-zero payloads from 1 it is `(1 + n) mod 256`. -/
def Obligations.CursorClosedForm : Prop :=
  (∀ (t : Memory) (c : Byte) (ps : List (List Byte)) (k : Nat) (h : k < (cursorRun t c ps).length),
    (cursorRun t c ps)[k].1.toNat =
      (c.toNat + ((ps.take (k + 1)).map (fun p => payloadSum p + 1)).sum) % 256 ∧
    (cursorRun t c ps)[k].2 = t.read (cursorRun t c ps)[k].1) ∧
  (∀ (t : Memory) (c : Byte) (ps : List (List Byte)), (cursorRun t c ps).length = ps.length) ∧
  (∀ (t : Memory) (n : Nat) (h : n < (cursorRun t 1 (List.replicate (n + 1) [0, 0])).length),
    (cursorRun t 1 (List.replicate (n + 1) [0, 0]))[n].1.toNat = (1 + (n + 1)) % 256)

/-- R88, derived: two cursors that start alike with tables that read alike produce the same sequence; an update with
payload `p` on one side only leaves the sides apart by `(sum(p) + 1) mod 256` for every later update, and when that is
0 nothing is desynchronised. -/
def Obligations.MirroredCursorsAgreeAndASkippedUpdateStaysApart : Prop :=
  (∀ (t u : Memory) (c : Byte) (ps : List (List Byte)), (∀ i, t.read i = u.read i) →
    cursorRun t c ps = cursorRun u c ps) ∧
  (∀ (t : Memory) (c : Byte) (p : List Byte) (ps : List (List Byte)) (k : Nat)
    (h : k < (cursorRun t c ps).length) (h' : k < (cursorRun t (cursorNext t c p).1 ps).length),
    (cursorRun t (cursorNext t c p).1 ps)[k].1 - (cursorRun t c ps)[k].1 = BitVec.ofNat 8 (payloadSum p + 1)) ∧
  (∀ (t : Memory) (c : Byte) (p : List Byte) (ps : List (List Byte)), (payloadSum p + 1) % 256 = 0 →
    cursorRun t (cursorNext t c p).1 ps = cursorRun t c ps)

/-- R82: CKO2 advances IDX_OUT by `P0 + P1 + 1` modulo 256 and returns the table's entry at the new value; nothing
else changes but the result ports. -/
def Obligations.Cko2AdvancesTheOutboundCursor : Prop :=
  ∀ (p0 p1 : Byte) (s : State), exec (.cko2 p0 p1) s = .next
    { s with
      idxOut := s.idxOut + (p0 + p1 + 1)
      status := .ok
      senderr := false
      rdata := (s.table.read (s.idxOut + (p0 + p1 + 1))).setWidth 64
      txValid := false
      txData := 0 }

/-- R83: CKI4 advances IDX_IN by the sum of its four bytes plus one modulo 256 and returns the table's entry at the new
value; nothing else changes but the result ports, INPUTS in particular. -/
def Obligations.Cki4AdvancesTheInboundCursor : Prop :=
  ∀ (q0 q1 q2 q3 : Byte) (s : State), exec (.cki4 q0 q1 q2 q3) s = .next
    { s with
      idxIn := s.idxIn + (q3 + q2 + q1 + q0 + 1)
      status := .ok
      senderr := false
      rdata := (s.table.read (s.idxIn + (q3 + q2 + q1 + q0 + 1))).setWidth 64
      txValid := false
      txData := 0 }

/-- R85: CURRST sets both cursors to 1, reports OK and 0, and leaves OUTPUTS, INPUTS and ANALOG_SCALE unchanged. -/
def Obligations.CurrstSetsBothCursorsToOne : Prop :=
  ∀ s : State, exec .currst s = .next
    { s with
      idxOut := 0x01
      idxIn := 0x01
      status := .ok
      senderr := false
      rdata := 0
      txValid := false
      txData := 0 }

/-! ### The I/O registers (41_io_registers.md) -/

/-- R101: SETOUT writes the one bit of OUTPUTS and no other and reports OK and 0; an index of 16 or more reports
BIT_RANGE with the index and leaves OUTPUTS unchanged. Nothing else changes but the result ports. -/
def Obligations.SetoutWritesOneBit : Prop :=
  ∀ (bit : Nat) (v : Bool) (s : State),
    (bit < 16 → ∃ o : BitVec 16,
      (∀ j, j < 16 → o.getLsbD j = if j = bit then v else s.outputs.getLsbD j) ∧
      exec (.setout bit v) s = .next
        { s with
          outputs := o
          status := .ok
          senderr := false
          rdata := 0
          txValid := false
          txData := 0 }) ∧
    (16 ≤ bit → exec (.setout bit v) s = .next
      { s with
        status := .bitRange
        senderr := false
        rdata := BitVec.ofNat 64 bit
        txValid := false
        txData := 0 })

/-- R102: GETOUT returns the bit of OUTPUTS as 0 or 1; an index of 16 or more reports BIT_RANGE with the index. No
state changes. -/
def Obligations.GetoutTestsOneBit : Prop :=
  ∀ (bit : Nat) (s : State),
    (bit < 16 → exec (.getout bit) s = .next
      { s with
        status := .ok
        senderr := false
        rdata := if s.outputs.getLsbD bit then 1 else 0
        txValid := false
        txData := 0 }) ∧
    (16 ≤ bit → exec (.getout bit) s = .next
      { s with
        status := .bitRange
        senderr := false
        rdata := BitVec.ofNat 64 bit
        txValid := false
        txData := 0 })

/-- R103: GETIN returns the bit of INPUTS as 0 or 1, for every index its 5-bit field holds. No state changes. -/
def Obligations.GetinTestsOneBit : Prop :=
  ∀ (bit : Nat) (s : State), (Instr.getin bit).wellFormed = true → exec (.getin bit) s = .next
    { s with
      status := .ok
      senderr := false
      rdata := if s.inputs.getLsbD bit then 1 else 0
      txValid := false
      txData := 0 }

/-- R100: an index at or above the register's width (16 for OUTPUTS, 32 for INPUTS) is rejected, never wrapped: the
status is BIT_RANGE, the result data the index, and no state element changes. The clause on GETIN is the model's choice
(log 6): no word encodes an index of 32 or more, and R103 and R35 give GETIN no such report. -/
def Obligations.OutOfRangeBitIndexIsRejected : Prop :=
  ∀ (bit : Nat) (v : Bool) (s : State) (i : Instr),
    (i = .setout bit v ∧ 16 ≤ bit) ∨ (i = .getout bit ∧ 16 ≤ bit) ∨ (i = .getin bit ∧ 32 ≤ bit) →
    ∃ t, exec i s = .next t ∧ t.status = .bitRange ∧ t.rdata = BitVec.ofNat 64 bit ∧ s.SameArch t

/-- R109, derived: SETOUT then GETOUT of the same bit returns the value set, and the other bits of OUTPUTS are
unchanged by both. -/
def Obligations.GetoutReturnsWhatSetoutSet : Prop :=
  ∀ (bit : Nat) (v : Bool) (s : State), bit < 16 →
    ∃ t u, exec (.setout bit v) s = .next t ∧ exec (.getout bit) t = .next u ∧ u.status = .ok ∧
      u.rdata = (if v then 1 else 0) ∧
      ∀ j, j < 16 → j ≠ bit → t.outputs.getLsbD j = s.outputs.getLsbD j ∧ u.outputs.getLsbD j = s.outputs.getLsbD j

/-- R104, R130: SETOUT of bit 8 sets the low-pass-filter flag, and the flag is bit 0 of the second byte of the next
frame. -/
def Obligations.LowPassFlagReachesTheFrame : Prop :=
  ∀ (v : Bool) (s : State),
    ∃ t u, exec (.setout 8 v) s = .next t ∧ exec .txbuild t = .next u ∧ lowPassFilter t.outputs = v ∧
      u.txValid = true ∧ u.txData.getLsbD 8 = v

/-- R107: GETANALOG reports OK and the binary64 pattern of the scaled sample, divide first and then multiply, with any
NaN pattern for a NaN; no state changes. The NaN's pattern is free (log 3). -/
def Obligations.GetanalogReturnsTheScaledSample : Prop :=
  ∀ s : State, ∃ d : BitVec 64, exec .getanalog s = .next
    { s with
      status := .ok
      senderr := false
      rdata := d
      txValid := false
      txData := 0 } ∧
    (∀ nanBits : BitVec 64,
      fmul64 (u16ToF64 (s.inputs.extractLsb' 16 16)) (fdiv64 (F64.ofBits s.analogScale) (u16ToF64 4095)) ≠ .nan →
      d = bits64 nanBits
        (fmul64 (u16ToF64 (s.inputs.extractLsb' 16 16)) (fdiv64 (F64.ofBits s.analogScale) (u16ToF64 4095)))) ∧
    (fmul64 (u16ToF64 (s.inputs.extractLsb' 16 16)) (fdiv64 (F64.ofBits s.analogScale) (u16ToF64 4095)) = .nan →
      F64.ofBits d = .nan)

/-- R13, D14: the product of two finite patterns is their exact product rounded to nearest, ties to even, and
its sign, a zero's too, is negative exactly where one of the two signs is. That the format is binary64 is the spec's own
choice, and the sign of a zero is IEEE 754's (log 9). -/
def Obligations.MultiplicationIsCorrectlyRounded : Prop :=
  ∀ (a b nanBits : BitVec 64), (F64.ofBits a).isFinite = true → (F64.ofBits b).isFinite = true →
    RoundsTo ((F64.ofBits a).value * (F64.ofBits b).value) (bits64 nanBits (fmul64 (F64.ofBits a) (F64.ofBits b))) ∧
    (bits64 nanBits (fmul64 (F64.ofBits a) (F64.ofBits b))).getLsbD 63 = (a.getLsbD 63 != b.getLsbD 63)

/-- R13, D14: the quotient of two finite patterns, the second not zero, is their exact quotient rounded to nearest,
ties to even, and its sign, a zero's too, is negative exactly where one of the two signs is (log 9). -/
def Obligations.DivisionIsCorrectlyRounded : Prop :=
  ∀ (a b nanBits : BitVec 64), (F64.ofBits a).isFinite = true → (F64.ofBits b).isFinite = true →
    (F64.ofBits b).value ≠ 0 →
    RoundsTo ((F64.ofBits a).value / (F64.ofBits b).value) (bits64 nanBits (fdiv64 (F64.ofBits a) (F64.ofBits b))) ∧
    (bits64 nanBits (fdiv64 (F64.ofBits a) (F64.ofBits b))).getLsbD 63 = (a.getLsbD 63 != b.getLsbD 63)

/-- R13: `u16_to_f64` is exact for every 16-bit value, and its pattern stands for the value. -/
def Obligations.IntegerToFloatIsExact : Prop :=
  ∀ (v : BitVec 16) (nanBits : BitVec 64),
    F64.ofBits (bits64 nanBits (u16ToF64 v)) = u16ToF64 v ∧ (u16ToF64 v).isFinite = true ∧
    (u16ToF64 v).value = (v.toNat : ℚ)

/-- R107, the corner cases (the spec takes them from general knowledge, G2; log 9): zero, infinite, NaN and negative
scales. The result's sign is the sign of a finite scale for every sample, also where the quotient or the product
underflows to a zero. -/
def Obligations.AnalogCornerCases : Prop :=
  ∀ inputs : BitVec 32,
    analogResult inputs 0x0000000000000000 = 0x0000000000000000 ∧
    analogResult inputs 0x8000000000000000 = 0x8000000000000000 ∧
    (inputs.extractLsb' 16 16 ≠ 0 →
      analogResult inputs 0x7FF0000000000000 = 0x7FF0000000000000 ∧
      analogResult inputs 0xFFF0000000000000 = 0xFFF0000000000000) ∧
    (inputs.extractLsb' 16 16 = 0 →
      F64.ofBits (analogResult inputs 0x7FF0000000000000) = .nan ∧
      F64.ofBits (analogResult inputs 0xFFF0000000000000) = .nan) ∧
    (∀ scale : BitVec 64, F64.ofBits scale = .nan → F64.ofBits (analogResult inputs scale) = .nan) ∧
    (∀ scale : BitVec 64, (F64.ofBits scale).isFinite = true → scale.getLsbD 63 = true →
      inputs.extractLsb' 16 16 = 0 → analogResult inputs scale = 0x8000000000000000) ∧
    (∀ scale : BitVec 64, (F64.ofBits scale).isFinite = true →
      (analogResult inputs scale).getLsbD 63 = scale.getLsbD 63)

/-- R110, derived: with ANALOG_SCALE = 4095.0, GETANALOG returns exactly `u16_to_f64` of the sample, for every
INPUTS, a number whose value is the sample; and for every scale the digital inputs do not affect it. -/
def Obligations.AnalogExtractionIsExactAtFullScale : Prop :=
  (∀ s : State, s.analogScale = 0x40AFFE0000000000 →
    ∃ t, exec .getanalog s = .next t ∧
      (∀ nanBits : BitVec 64, t.rdata = bits64 nanBits (u16ToF64 (s.inputs.extractLsb' 16 16))) ∧
      (F64.ofBits t.rdata).isFinite = true ∧
      (F64.ofBits t.rdata).value = ((s.inputs.toNat / 2 ^ 16 : Nat) : ℚ)) ∧
  (∀ (s : State) (inputs : BitVec 32), inputs.extractLsb' 16 16 = s.inputs.extractLsb' 16 16 →
    ∃ t u, exec .getanalog s = .next t ∧ exec .getanalog { s with inputs := inputs } = .next u ∧
      u.rdata = t.rdata)

/-- R108: SETSCALE stores any 64-bit pattern unchanged and reports OK and 0; nothing else changes but the result
ports. -/
def Obligations.SetscaleStoresThePattern : Prop :=
  ∀ (f64 : BitVec 64) (s : State), exec (.setscale f64) s = .next
    { s with
      analogScale := f64
      status := .ok
      senderr := false
      rdata := 0
      txValid := false
      txData := 0 }

/-! ### The exchange (42_exchange.md) -/

/-- R132: TXBUILD advances IDX_OUT by the two bytes of OUTPUTS plus one, and emits the frame of the low byte, the high
byte and the table's entry at the new cursor, which is also the result data. Nothing else changes. -/
def Obligations.TxbuildEmitsTheFrame : Prop :=
  ∀ s : State,
    let idx := s.idxOut + (s.outputs.extractLsb' 0 8 + s.outputs.extractLsb' 8 8 + 1)
    let frame : BitVec 24 := s.table.read idx ++ (s.outputs.extractLsb' 8 8 ++ s.outputs.extractLsb' 0 8)
    exec .txbuild s = .next
      { s with
        idxOut := idx
        status := .ok
        senderr := false
        rdata := frame.setWidth 64
        txValid := true
        txData := frame }

/-- R133: the receive step on a timeout, a transport error, a datagram of another length than 5, and a 5-byte datagram
whose last byte is, or is not, the table's entry at the cursor advanced by the four input bytes. The length is reported
where 64 bits hold it. -/
def Obligations.ReceiveStepClassifiesTheEvent : Prop :=
  ∀ (t : Memory) (idx : Byte) (inp : BitVec 32),
    rxStep t idx inp .timeout = ⟨idx, inp, .timeout, 0⟩ ∧
    rxStep t idx inp .transportError = ⟨idx, inp, .xerr, 0⟩ ∧
    (∀ d : List Byte, d.length ≠ 5 →
      rxStep t idx inp (.datagram d) = ⟨idx, inp, .malformed, (rxStep t idx inp (.datagram d)).data⟩ ∧
      (d.length < 2 ^ 64 → (rxStep t idx inp (.datagram d)).data.toNat = d.length)) ∧
    (∀ b0 b1 b2 b3 : Byte,
      rxStep t idx inp (.datagram [b0, b1, b2, b3, t.read (idx + (b3 + b2 + b1 + b0 + 1))]) =
        ⟨idx + (b3 + b2 + b1 + b0 + 1),
          (b3.setWidth 32 <<< 24) ||| (b2.setWidth 32 <<< 16) ||| (b1.setWidth 32 <<< 8) ||| b0.setWidth 32, .ok,
          BitVec.ofNat 64 (b3.toNat * 2 ^ 24 + b2.toNat * 2 ^ 16 + b1.toNat * 2 ^ 8 + b0.toNat)⟩) ∧
    (∀ b0 b1 b2 b3 c : Byte, t.read (idx + (b3 + b2 + b1 + b0 + 1)) ≠ c →
      rxStep t idx inp (.datagram [b0, b1, b2, b3, c]) =
        ⟨idx + (b3 + b2 + b1 + b0 + 1), inp, .mismatch,
          BitVec.ofNat 64 ((t.read (idx + (b3 + b2 + b1 + b0 + 1))).toNat * 2 ^ 8 + c.toNat)⟩)

/-- R138: RXCHECK takes one receive event and writes IDX_IN, INPUTS, the status and the result data that the receive
step gives for it; it makes no send and emits no frame, and changes no other state element. -/
def Obligations.RxcheckAppliesTheReceiveStep : Prop :=
  ∀ s : State,
    let r := rxStep s.table s.idxIn s.inputs s.rxEvent
    ∃ t, exec .rxcheck s = .next t ∧
      t.idxIn = r.idx ∧ t.inputs = r.inputs ∧ t.status = r.status ∧ t.rdata = r.data ∧ t.senderr = false ∧
      t.txValid = false ∧ t.txData = 0 ∧
      t.idxOut = s.idxOut ∧ t.outputs = s.outputs ∧ t.analogScale = s.analogScale ∧ t.table = s.table

/-- R140: UPDATE does TXBUILD's half, records the send outcome in SENDERR, and does RXCHECK's half, whose status and
result data it reports; it changes no other state element. -/
def Obligations.UpdatePerformsOneExchange : Prop :=
  ∀ s : State,
    let idx := s.idxOut + (s.outputs.extractLsb' 0 8 + s.outputs.extractLsb' 8 8 + 1)
    let r := rxStep s.table s.idxIn s.inputs s.rxEvent
    ∃ t, exec .update s = .next t ∧
      t.idxOut = idx ∧ t.txValid = true ∧
      t.txData = s.table.read idx ++ (s.outputs.extractLsb' 8 8 ++ s.outputs.extractLsb' 0 8) ∧
      (t.senderr = true ↔ s.sendOutcome = .transportError) ∧
      t.idxIn = r.idx ∧ t.inputs = r.inputs ∧ t.status = r.status ∧ t.rdata = r.data ∧
      t.outputs = s.outputs ∧ t.analogScale = s.analogScale ∧ t.table = s.table

/-- R34, R144: a transport answer is the next listed one, which is then used up; where none is listed it is a free
value, numbered by a counter that then advances. RXCHECK uses up one receive event, UPDATE one send outcome and one
receive event, and neither touches anything else of the machine than what R138 and R140 give it. The form is the
model's (log 2). -/
def Obligations.TransportAnswersAreListedOrFree : Prop :=
  (∀ (s : State) (ev : RxEvent) (rest : List RxEvent),
    ({ s with rxAnswers := ev :: rest } : State).rxEvent = ev ∧
    ({ s with rxAnswers := ev :: rest } : State).consumeRx = { s with rxAnswers := rest } ∧
    ({ s with rxAnswers := [] } : State).rxEvent = Config.freeRxEvent s.rxDraws ∧
    ({ s with rxAnswers := [] } : State).consumeRx = { s with rxAnswers := [], rxDraws := s.rxDraws + 1 }) ∧
  (∀ (s : State) (o : SendOutcome) (rest : List SendOutcome),
    ({ s with sendAnswers := o :: rest } : State).sendOutcome = o ∧
    ({ s with sendAnswers := o :: rest } : State).consumeSend = { s with sendAnswers := rest } ∧
    ({ s with sendAnswers := [] } : State).sendOutcome = Config.freeSendOutcome s.sendDraws ∧
    ({ s with sendAnswers := [] } : State).consumeSend = { s with sendAnswers := [], sendDraws := s.sendDraws + 1 }) ∧
  (∀ s : State, ∃ t u, exec .rxcheck s = .next t ∧ exec .update s = .next u ∧
    t = { s.consumeRx with
          idxIn := t.idxIn
          inputs := t.inputs
          status := t.status
          senderr := t.senderr
          rdata := t.rdata
          txValid := t.txValid
          txData := t.txData } ∧
    u = { s.consumeSend.consumeRx with
          idxOut := u.idxOut
          idxIn := u.idxIn
          inputs := u.inputs
          status := u.status
          senderr := u.senderr
          rdata := u.rdata
          txValid := u.txValid
          txData := u.txData })

/-- R34: all that a receive reads of an event is on the ports: the event that the ports present in its place gives the
same receive step. -/
def Obligations.ReceivePortsCarryAllThatIsRead : Prop :=
  ∀ (t : Memory) (idx : Byte) (inp : BitVec 32) (ev : RxEvent),
    ∃ ev', rxEventOfPins (rxPinsOfEvent ev) = some ev' ∧ rxStep t idx inp ev' = rxStep t idx inp ev

/-- R136, derived: RXCHECK and UPDATE advance IDX_IN exactly by a 5-byte datagram, whether or not it validates, and not
at all on a timeout, a transport error or a datagram of another length. -/
def Obligations.InboundCursorAdvancesOnFiveByteDatagrams : Prop :=
  ∀ (s : State) (i : Instr), i = .rxcheck ∨ i = .update → ∃ t, exec i s = .next t ∧
    (∀ b0 b1 b2 b3 c : Byte, s.rxEvent = .datagram [b0, b1, b2, b3, c] →
      t.idxIn = s.idxIn + (b3 + b2 + b1 + b0 + 1)) ∧
    ((∀ d : List Byte, s.rxEvent = .datagram d → d.length ≠ 5) → t.idxIn = s.idxIn)

/-- R142: UPDATE sets SENDERR exactly when its send failed, every other command clears it, and a send failure does not
undo the advance of IDX_OUT. -/
def Obligations.SenderrRecordsAFailedSendOfUpdate : Prop :=
  ∀ (s : State) (i : Instr), ∃ t, exec i s = .next t ∧
    (t.senderr = true ↔ i = .update ∧ s.sendOutcome = .transportError) ∧
    (i = .update → t.idxOut = s.idxOut + (s.outputs.extractLsb' 0 8 + s.outputs.extractLsb' 8 8 + 1))

/-- R141: in UPDATE the send outcome never changes the receive half, and the receive event never changes the outbound
half. -/
def Obligations.HalvesOfUpdateAreIndependent : Prop :=
  ∀ (s : State) (sends : List SendOutcome) (n : Nat) (events : List RxEvent) (m : Nat),
    ∃ t u v, exec .update s = .next t ∧
      exec .update { s with sendAnswers := sends, sendDraws := n } = .next u ∧
      exec .update { s with rxAnswers := events, rxDraws := m } = .next v ∧
      u = { t with senderr := u.senderr, sendAnswers := u.sendAnswers, sendDraws := u.sendDraws } ∧
      v.idxOut = t.idxOut ∧ v.txValid = t.txValid ∧ v.txData = t.txData ∧ v.senderr = t.senderr

/-! ### Whole-machine rules -/

/-- R20 to R27, R29: which commands can change which state. IDX_OUT: CKO2, TXBUILD, UPDATE, CURRST. IDX_IN: CKI4,
RXCHECK, UPDATE, CURRST. OUTPUTS: SETOUT. INPUTS: RXCHECK and UPDATE, and only with status OK. ANALOG_SCALE: SETSCALE.
The table, the program and the position: none. -/
def Obligations.StateChangesOnlyByItsWriters : Prop :=
  ∀ (s t : State) (i : Instr), exec i s = .next t →
    (t.idxOut ≠ s.idxOut → (∃ p0 p1, i = .cko2 p0 p1) ∨ i = .txbuild ∨ i = .update ∨ i = .currst) ∧
    (t.idxIn ≠ s.idxIn → (∃ q0 q1 q2 q3, i = .cki4 q0 q1 q2 q3) ∨ i = .rxcheck ∨ i = .update ∨ i = .currst) ∧
    (t.outputs ≠ s.outputs → ∃ bit v, i = .setout bit v) ∧
    (t.inputs ≠ s.inputs → (i = .rxcheck ∨ i = .update) ∧ t.status = .ok) ∧
    (t.analogScale ≠ s.analogScale → ∃ x, i = .setscale x) ∧
    t.table = s.table ∧ t.program = s.program ∧ t.pc = s.pc ∧ t.resetAt = s.resetAt

/-- R23: a command that updates one cursor neither reads nor writes the other. -/
def Obligations.CursorsAreIndependent : Prop :=
  (∀ (s : State) (i : Instr) (x : Byte), (∃ p0 p1, i = .cko2 p0 p1) ∨ i = .txbuild →
    ∃ t, exec i s = .next t ∧ t.idxIn = s.idxIn ∧ exec i { s with idxIn := x } = .next { t with idxIn := x }) ∧
  (∀ (s : State) (i : Instr) (x : Byte), (∃ q0 q1 q2 q3, i = .cki4 q0 q1 q2 q3) ∨ i = .rxcheck →
    ∃ t, exec i s = .next t ∧ t.idxOut = s.idxOut ∧ exec i { s with idxOut := x } = .next { t with idxOut := x })

/-- R31, R36: no command reads the result ports: whatever they hold, a command's effect and its results are the
same. -/
def Obligations.ResultPortsAreNeverRead : Prop :=
  ∀ (s : State) (i : Instr) (st : Status) (e v : Bool) (d : BitVec 64) (f : BitVec 24),
    exec i { s with status := st, senderr := e, rdata := d, txValid := v, txData := f } = exec i s

/-- R47: GETOUT, GETIN and GETANALOG change no state element, and repeating one gives the same result. -/
def Obligations.ReadingCommandsChangeNothing : Prop :=
  ∀ (s : State) (i : Instr), (∃ bit, i = .getout bit) ∨ (∃ bit, i = .getin bit) ∨ i = .getanalog →
    ∃ t, exec i s = .next t ∧ s.SameArch t ∧ exec i t = .next t

/-- R35: the codes of the statuses, and which commands produce them; INVALID_INPUT is produced by none (R84). -/
def Obligations.StatusesHaveTheirCodesAndProducers : Prop :=
  (statusCode .ok = 0x0 ∧ statusCode .timeout = 0x1 ∧ statusCode .malformed = 0x2 ∧ statusCode .mismatch = 0x3 ∧
    statusCode .xerr = 0x4 ∧ statusCode .invalidInput = 0x5 ∧ statusCode .bitRange = 0x6 ∧
    statusCode .illegalCmd = 0x7) ∧
  (∀ (s : State) (i : Instr), i.wellFormed = true → ∃ t, exec i s = .next t ∧
    (t.status = .timeout ∨ t.status = .malformed ∨ t.status = .mismatch ∨ t.status = .xerr →
      i = .rxcheck ∨ i = .update) ∧
    (t.status = .bitRange → (∃ bit v, i = .setout bit v) ∨ ∃ bit, i = .getout bit) ∧
    t.status ≠ .invalidInput ∧ t.status ≠ .illegalCmd)

/-! ### The round trip (42_exchange.md R145; 70_reset_and_hazards.md R188) -/

/-- R145, derived: the inbound round trip with the reference peer (log 14). If the inbound pair is in step and the
peer's datagrams for the input words `xs` reach the block unaltered, once each and in order, in a program that receives
once per command, then every one validates, INPUTS becomes each word in turn, and the pair is in step after each. -/
def Obligations.EveryDatagramOfThePeerValidates : Prop :=
  ∀ (s : State) (p : Peer) (xs : List (BitVec 32)) (rest : List RxEvent),
    s.InboundInStep p → s.resetAt = [] → s.rxAnswers = p.answers xs ++ rest →
    (∀ k, k < xs.length → s.commandAt k .rxcheck ∨ s.commandAt k .update) →
    ∀ (k : Nat) (h : k < xs.length), ∃ t, runsTo (k + 1) s t ∧ t.status = .ok ∧ t.inputs = xs[k] ∧
      t.InboundInStep (p.afterAnswers (xs.take (k + 1)))

/-- R145, derived: the outbound round trip with the reference peer (log 14). If the outbound pair is in step, the peer
computes the third byte of the packet that TXBUILD or UPDATE emits, and the pair is in step after it. -/
def Obligations.PeerComputesTheChecksumOfEveryPacket : Prop :=
  ∀ (s : State) (p : Peer) (i : Instr), s.OutboundInStep p → i = .txbuild ∨ i = .update →
    ∃ t, exec i s = .next t ∧
      (p.nextRx (t.txData.extractLsb' 0 8) (t.txData.extractLsb' 8 8)).2 = t.txData.extractLsb' 16 8 ∧
      t.OutboundInStep (p.afterPacket (t.txData.extractLsb' 0 8) (t.txData.extractLsb' 8 8))

/-- R188, derived: the inbound check depends only on the sequence of 5-byte datagrams, not on the exchange in which
each arrives. If the peer's datagrams arrive in order and unaltered with timeouts in between, every one validates, the
receive that validates it stores its input word, and the pair is in step at the end. -/
def Obligations.DelayAloneDoesNotDesynchronise : Prop :=
  ∀ (s : State) (p : Peer) (xs : List (BitVec 32)) (events rest : List RxEvent),
    s.InboundInStep p → s.resetAt = [] → s.rxAnswers = events ++ rest →
    events.filter (fun ev => decide (ev ≠ .timeout)) = p.answers xs →
    (∀ k, k < events.length → s.commandAt k .rxcheck ∨ s.commandAt k .update) →
    (∀ (k : Nat) (h : k < events.length), ∃ t, runsTo (k + 1) s t ∧
      t.status = (if events[k] = .timeout then .timeout else .ok) ∧
      (events[k] ≠ .timeout →
        xs[((events.take k).filter (fun ev => decide (ev ≠ .timeout))).length]? = some t.inputs)) ∧
    ∃ t, runsTo events.length s t ∧ t.InboundInStep (p.afterAnswers xs)

/-- R145, R186, derived: one step of a session with the reference peer (log 14): a step with no reset due that runs a
word other than CKI4 and CURRST. A step that runs RXCHECK or UPDATE on the peer's next datagram validates it, stores its
input word and leaves the pair in step with the peer that has sent it; a step that runs any other of these words leaves
INPUTS, the pair and the datagrams to come as they are. Left out are a due reset, CKI4 and CURRST, which can take the
pair apart (R186), and a receive of any other event than the peer's next datagram, of which nothing is said. -/
def Obligations.SessionStepsKeepTheInboundPairInStep : Prop :=
  ∀ (s : State) (p : Peer) (w : CommandWord), s.InboundInStep p → s.resetDue = false → s.program[s.pc]? = some w →
    (∀ q0 q1 q2 q3, decode w ≠ .command (.cki4 q0 q1 q2 q3)) → decode w ≠ .command .currst →
    ∃ t, step s = .next t ∧
      (decode w = .command .rxcheck ∨ decode w = .command .update →
        ∀ (x : BitVec 32) (xs : List (BitVec 32)) (rest : List RxEvent), s.rxAnswers = p.answers (x :: xs) ++ rest →
          t.status = .ok ∧ t.inputs = x ∧ t.InboundInStep (p.afterAnswer x) ∧
          t.rxAnswers = (p.afterAnswer x).answers xs ++ rest) ∧
      (decode w ≠ .command .rxcheck → decode w ≠ .command .update →
        t.inputs = s.inputs ∧ t.InboundInStep p ∧ t.rxAnswers = s.rxAnswers)
end

