-- ==== Sys2Proof/Laws/Encoding.lean ====
section
/-! SUPPORT. The fields of a word put together from an opcode and an argument, and the reserved bits. -/

namespace Sys2Proof.Laws

/-- One bit of a word put together from an opcode and an argument. -/
theorem getLsbD_word (opc : Byte) (arg : BitVec 64) (i : Nat) :
    BitVec.getLsbD (w := 72) (opc ++ arg) i = if i < 64 then arg.getLsbD i else opc.getLsbD (i - 64) :=
  BitVec.getLsbD_append

/-- The opcode of a word is its upper eight bits. -/
@[simp] theorem opcodeOf_append (opc : Byte) (arg : BitVec 64) : opcodeOf (opc ++ arg) = opc := by
  apply BitVec.eq_of_getLsbD_eq
  intro i hi
  simp only [opcodeOf, BitVec.getLsbD_extractLsb', getLsbD_word]
  simp [hi]

/-- The argument of a word is its lower 64 bits. -/
@[simp] theorem argOf_append (opc : Byte) (arg : BitVec 64) : argOf (opc ++ arg) = arg := by
  apply BitVec.eq_of_getLsbD_eq
  intro i hi
  simp only [argOf, BitVec.getLsbD_extractLsb', getLsbD_word]
  simp [hi]

/-- A word is its opcode and its argument. -/
theorem append_fields (w : CommandWord) : opcodeOf w ++ argOf w = w := by
  apply BitVec.eq_of_getLsbD_eq
  intro i hi
  rw [getLsbD_word]
  simp only [opcodeOf, argOf, BitVec.getLsbD_extractLsb']
  by_cases h : i < 64
  · simp [h]
  · simp [h, show i - 64 < 8 by omega, show 64 + (i - 64) = i by omega]

/-- One bit of a format P2 argument. -/
theorem getLsbD_argP2 (p0 p1 : Byte) (i : Nat) :
    (argP2 p0 p1).getLsbD i = if i < 8 then p0.getLsbD i else p1.getLsbD (i - 8) := by
  refine (BitVec.getLsbD_append (x := 0#48) (y := p1 ++ p0)).trans ?_
  simp only [BitVec.getLsbD_append]
  by_cases h1 : i < 8
  · simp [h1, show i < 16 by omega]
  · by_cases h2 : i < 16
    · simp [h1, h2]
    · simp [h1, h2, BitVec.getLsbD_of_ge p1 (i - 8) (by omega)]

/-- One bit of a format P4 argument. -/
theorem getLsbD_argP4 (q0 q1 q2 q3 : Byte) (i : Nat) :
    (argP4 q0 q1 q2 q3).getLsbD i =
      if i < 8 then q0.getLsbD i else if i < 16 then q1.getLsbD (i - 8)
      else if i < 24 then q2.getLsbD (i - 16) else q3.getLsbD (i - 24) := by
  refine (BitVec.getLsbD_append (x := 0#32) (y := q3 ++ (q2 ++ (q1 ++ q0)))).trans ?_
  simp only [BitVec.getLsbD_append]
  by_cases h1 : i < 8
  · simp [h1, show i < 16 by omega, show i < 24 by omega, show i < 32 by omega]
  · by_cases h2 : i < 16
    · simp [h1, h2, show i < 24 by omega, show i < 32 by omega]
    · by_cases h3 : i < 24
      · simp [h1, h2, h3, show i < 32 by omega]
      · by_cases h4 : i < 32
        · simp [h1, h2, h3, h4]
        · simp [h1, h2, h3, h4, BitVec.getLsbD_of_ge q3 (i - 24) (by omega)]

/-- One bit of a format B argument. -/
theorem getLsbD_argB (bit : Nat) (v : Bool) (i : Nat) :
    (argB bit v).getLsbD i = if i < 5 then bit.testBit i else decide (i = 8) && v := by
  refine (BitVec.getLsbD_append (x := 0#55) (y := BitVec.ofBool v ++ (0#3 ++ BitVec.ofNat 5 bit))).trans ?_
  simp only [BitVec.getLsbD_append]
  by_cases h1 : i < 5
  · simp [h1, show i < 8 by omega, show i < 9 by omega]
    rw [← BitVec.getLsbD_eq_getElem, BitVec.getLsbD_ofNat]
    simp [h1]
  · by_cases h2 : i < 8
    · simp [h1, h2, show i < 9 by omega, show i ≠ 8 by omega]
    · by_cases h3 : i = 8
      · subst h3; cases v <;> rfl
      · simp [h1, h3, show ¬ i < 9 by omega]

@[simp] theorem unlessReserved_eq_command (r : Bool) (i j : Instr) :
    unlessReserved r i = .command j ↔ r = false ∧ i = j := by
  cases r <;> simp [unlessReserved]

@[simp] theorem unlessReserved_eq_illegal (r : Bool) (i : Instr) (why : IllegalWord) :
    unlessReserved r i = .illegal why ↔ r = true ∧ .reservedBitSet = why := by
  cases r <;> simp [unlessReserved]

/-- A five-bit field holds less than 32. -/
theorem argBit_lt (arg : BitVec 64) : argBit arg < 32 := (arg.extractLsb' 0 5).isLt

/-- All that a word which decodes to a command can be: its opcode, its reserved bits, and the command with its
operands. -/
theorem decode_command_cases {w : CommandWord} {i : Instr} (h : decode w = .command i) :
    (opcodeOf w = 0x01#8 ∧ (argOf w).extractLsb' 16 48 = 0 ∧ i = .cko2 (argByte (argOf w) 0) (argByte (argOf w) 1)) ∨
    (opcodeOf w = 0x02#8 ∧ (argOf w).extractLsb' 32 32 = 0 ∧
      i = .cki4 (argByte (argOf w) 0) (argByte (argOf w) 1) (argByte (argOf w) 2) (argByte (argOf w) 3)) ∨
    (opcodeOf w = 0x03#8 ∧ argOf w = 0 ∧ i = .currst) ∨
    (opcodeOf w = 0x10#8 ∧ (argOf w).extractLsb' 9 55 = 0 ∧ (argOf w).extractLsb' 5 3 = 0 ∧
      i = .setout (argBit (argOf w)) (argV (argOf w))) ∨
    (opcodeOf w = 0x11#8 ∧ (argOf w).extractLsb' 5 59 = 0 ∧ i = .getout (argBit (argOf w))) ∨
    (opcodeOf w = 0x12#8 ∧ (argOf w).extractLsb' 5 59 = 0 ∧ i = .getin (argBit (argOf w))) ∨
    (opcodeOf w = 0x20#8 ∧ argOf w = 0 ∧ i = .getanalog) ∨
    (opcodeOf w = 0x21#8 ∧ i = .setscale (argOf w)) ∨
    (opcodeOf w = 0x30#8 ∧ argOf w = 0 ∧ i = .txbuild) ∨
    (opcodeOf w = 0x31#8 ∧ argOf w = 0 ∧ i = .rxcheck) ∨
    (opcodeOf w = 0x32#8 ∧ argOf w = 0 ∧ i = .update) := by
  unfold decode at h
  dsimp only at h
  by_cases h0 : opcodeOf w = 0x01#8
  · rw [if_pos h0] at h
    rw [unlessReserved_eq_command] at h
    obtain ⟨hr, rfl⟩ := h
    exact .inl ⟨h0, bne_eq_false_iff_eq.mp hr, rfl⟩
  rw [if_neg h0] at h
  by_cases h1 : opcodeOf w = 0x02#8
  · rw [if_pos h1] at h
    rw [unlessReserved_eq_command] at h
    obtain ⟨hr, rfl⟩ := h
    exact .inr (.inl ⟨h1, bne_eq_false_iff_eq.mp hr, rfl⟩)
  rw [if_neg h1] at h
  by_cases h2 : opcodeOf w = 0x03#8
  · rw [if_pos h2] at h
    rw [unlessReserved_eq_command] at h
    obtain ⟨hr, rfl⟩ := h
    exact .inr (.inr (.inl ⟨h2, bne_eq_false_iff_eq.mp hr, rfl⟩))
  rw [if_neg h2] at h
  by_cases h3 : opcodeOf w = 0x10#8
  · rw [if_pos h3] at h
    rw [unlessReserved_eq_command] at h
    obtain ⟨hr, rfl⟩ := h
    rw [Bool.or_eq_false_iff, bne_eq_false_iff_eq, bne_eq_false_iff_eq] at hr
    exact .inr (.inr (.inr (.inl ⟨h3, hr.1, hr.2, rfl⟩)))
  rw [if_neg h3] at h
  by_cases h4 : opcodeOf w = 0x11#8
  · rw [if_pos h4] at h
    rw [unlessReserved_eq_command] at h
    obtain ⟨hr, rfl⟩ := h
    exact .inr (.inr (.inr (.inr (.inl ⟨h4, bne_eq_false_iff_eq.mp hr, rfl⟩))))
  rw [if_neg h4] at h
  by_cases h5 : opcodeOf w = 0x12#8
  · rw [if_pos h5] at h
    rw [unlessReserved_eq_command] at h
    obtain ⟨hr, rfl⟩ := h
    exact .inr (.inr (.inr (.inr (.inr (.inl ⟨h5, bne_eq_false_iff_eq.mp hr, rfl⟩)))))
  rw [if_neg h5] at h
  by_cases h6 : opcodeOf w = 0x20#8
  · rw [if_pos h6] at h
    rw [unlessReserved_eq_command] at h
    obtain ⟨hr, rfl⟩ := h
    exact .inr (.inr (.inr (.inr (.inr (.inr (.inl ⟨h6, bne_eq_false_iff_eq.mp hr, rfl⟩))))))
  rw [if_neg h6] at h
  by_cases h7 : opcodeOf w = 0x21#8
  · rw [if_pos h7] at h
    cases h
    exact .inr (.inr (.inr (.inr (.inr (.inr (.inr (.inl ⟨h7, rfl⟩)))))))
  rw [if_neg h7] at h
  by_cases h8 : opcodeOf w = 0x30#8
  · rw [if_pos h8] at h
    rw [unlessReserved_eq_command] at h
    obtain ⟨hr, rfl⟩ := h
    exact .inr (.inr (.inr (.inr (.inr (.inr (.inr (.inr (.inl ⟨h8, bne_eq_false_iff_eq.mp hr, rfl⟩))))))))
  rw [if_neg h8] at h
  by_cases h9 : opcodeOf w = 0x31#8
  · rw [if_pos h9] at h
    rw [unlessReserved_eq_command] at h
    obtain ⟨hr, rfl⟩ := h
    exact .inr (.inr (.inr (.inr (.inr (.inr (.inr (.inr (.inr (.inl ⟨h9, bne_eq_false_iff_eq.mp hr, rfl⟩)))))))))
  rw [if_neg h9] at h
  by_cases h10 : opcodeOf w = 0x32#8
  · rw [if_pos h10] at h
    rw [unlessReserved_eq_command] at h
    obtain ⟨hr, rfl⟩ := h
    exact .inr (.inr (.inr (.inr (.inr (.inr (.inr (.inr (.inr (.inr (⟨h10, bne_eq_false_iff_eq.mp hr, rfl⟩))))))))))
  rw [if_neg h10] at h
  cases h

/-- A word decodes to well-formed commands only. -/
theorem wellFormed_of_decode {w : CommandWord} {i : Instr} (h : decode w = .command i) : i.wellFormed = true := by
  have hb : decide (argBit (argOf w) < 32) = true := decide_eq_true (argBit_lt _)
  obtain ⟨-, -, rfl⟩ | ⟨-, -, rfl⟩ | ⟨-, -, rfl⟩ | ⟨-, -, -, rfl⟩ | ⟨-, -, rfl⟩ | ⟨-, -, rfl⟩ | ⟨-, -, rfl⟩ | ⟨-, rfl⟩ |
    ⟨-, -, rfl⟩ | ⟨-, -, rfl⟩ | ⟨-, -, rfl⟩ := decode_command_cases h <;> first | rfl | exact hb

end Sys2Proof.Laws
end

