-- ==== Sys2Proof/Laws/Float64.lean ====
section
/-! SUPPORT. The pieces of the rounding function: the logarithm that places the quantum, the nearest integer, and the
pattern of a rounded datum. -/

namespace Sys2Proof.Laws

open Sys2Proof.Machine

theorem pow2_of_nonneg {e : Int} (h : 0 ≤ e) : ((pow2 e : Nat) : ℚ) = (2 : ℚ) ^ e := by
  obtain ⟨n, rfl⟩ := Int.eq_ofNat_of_zero_le h
  simp [pow2]

theorem pow2_of_nonpos {e : Int} (h : e ≤ 0) : pow2 e = 1 := by
  simp [pow2, Int.toNat_of_nonpos h]

theorem pow2_pos (e : Int) : 0 < pow2 e := Nat.pos_of_ne_zero (by simp [pow2])

/-- Scaling both sides by one power of two each is scaling by their quotient. -/
theorem pow2_div (e : Int) : ((pow2 e : Nat) : ℚ) / (pow2 (-e) : Nat) = (2 : ℚ) ^ e := by
  rcases le_total 0 e with h | h
  · rw [pow2_of_nonneg h, pow2_of_nonpos (by omega)]
    simp
  · rw [pow2_of_nonpos h, pow2_of_nonneg (by omega), zpow_neg]
    simp

/-- The nearest integer is at most a half away, and even where it is exactly a half away. -/
theorem nearestEven_spec (num : Nat) {den : Nat} (h : 0 < den) :
    |((nearestEven num den : Nat) : ℚ) - (num : ℚ) / den| ≤ 1 / 2 ∧
      (|((nearestEven num den : Nat) : ℚ) - (num : ℚ) / den| = 1 / 2 → nearestEven num den % 2 = 0) := by
  have hd : (0 : ℚ) < den := by exact_mod_cast h
  have hn : (num : ℚ) / den = (num / den : Nat) + ((num % den : Nat) : ℚ) / den := by
    rw [div_eq_iff hd.ne', add_mul, div_mul_cancel₀ _ hd.ne']
    exact_mod_cast (Nat.div_add_mod' num den).symm
  have h0 : (0 : ℚ) ≤ ((num % den : Nat) : ℚ) / den := by positivity
  have hlt := Nat.mod_lt num h
  unfold nearestEven
  simp only
  split
  · next h1 =>
    have : ((num % den : Nat) : ℚ) / den < 1 / 2 := by
      rw [div_lt_iff₀ hd]
      have : (2 : ℚ) * (num % den : Nat) < den := by exact_mod_cast h1
      linarith
    rw [hn, abs_sub_comm, add_sub_cancel_left, abs_of_nonneg h0]
    exact ⟨this.le, fun he => absurd he this.ne⟩
  · split
    · next h1 h2 =>
      have : 1 / 2 < ((num % den : Nat) : ℚ) / den := by
        rw [lt_div_iff₀ hd]
        have : (den : ℚ) < 2 * (num % den : Nat) := by exact_mod_cast h2
        linarith
      have h3 : ((num % den : Nat) : ℚ) / den ≤ 1 := by
        rw [div_le_one hd]
        exact_mod_cast hlt.le
      rw [hn, Nat.cast_succ, add_sub_add_left_eq_sub, abs_of_nonneg (by linarith)]
      exact ⟨by linarith, fun he => by linarith⟩
    · next h1 h2 =>
      have he : ((num % den : Nat) : ℚ) / den = 1 / 2 := by
        rw [div_eq_iff hd.ne']
        have : (2 : ℚ) * (num % den : Nat) = den := by exact_mod_cast (by omega : 2 * (num % den) = den)
        linarith
      rw [hn, he, Nat.cast_add, add_sub_add_left_eq_sub]
      rcases Nat.mod_two_eq_zero_or_one (num / den) with hp | hp <;> rw [hp]
      · norm_num
        exact hp
      · norm_num
        omega

/-- A quotient lies between two neighbouring powers of two, the lower with the exponent `floorLog2`. -/
theorem floorLog2_spec {num den : Nat} (hn : 0 < num) (hd : 0 < den) :
    (2 : ℚ) ^ floorLog2 num den ≤ (num : ℚ) / den ∧ (num : ℚ) / den < (2 : ℚ) ^ (floorLog2 num den + 1) := by
  have hd' : (0 : ℚ) < den := by exact_mod_cast hd
  have n1 : ((2 ^ num.log2 : Nat) : ℚ) ≤ num := by exact_mod_cast Nat.log2_self_le hn.ne'
  have n2 : (num : ℚ) < (2 ^ (num.log2 + 1) : Nat) := by exact_mod_cast Nat.lt_log2_self
  have d1 : ((2 ^ den.log2 : Nat) : ℚ) ≤ den := by exact_mod_cast Nat.log2_self_le hd.ne'
  have d2 : (den : ℚ) < (2 ^ (den.log2 + 1) : Nat) := by exact_mod_cast Nat.lt_log2_self
  push_cast at n1 n2 d1 d2
  have two : (0 : ℚ) < 2 := by norm_num
  have hz : ∀ a b : Nat, (2 : ℚ) ^ ((a : Int) - b) * 2 ^ b = 2 ^ a := fun a b => by
    rw [← zpow_natCast, ← zpow_natCast, ← zpow_add₀ two.ne']
    congr 1
    omega
  have low : (2 : ℚ) ^ ((num.log2 : Int) - den.log2 - 1) ≤ (num : ℚ) / den := by
    rw [le_div_iff₀ hd']
    have := hz num.log2 (den.log2 + 1)
    calc (2 : ℚ) ^ ((num.log2 : Int) - den.log2 - 1) * den
        ≤ (2 : ℚ) ^ ((num.log2 : Int) - den.log2 - 1) * 2 ^ (den.log2 + 1) :=
          mul_le_mul_of_nonneg_left d2.le (by positivity)
      _ = 2 ^ num.log2 := by rw [← this]; congr 2; push_cast; ring
      _ ≤ num := n1
  have high : (num : ℚ) / den < (2 : ℚ) ^ ((num.log2 : Int) - den.log2 + 1) := by
    rw [div_lt_iff₀ hd']
    have := hz (num.log2 + 1) den.log2
    calc (num : ℚ) < 2 ^ (num.log2 + 1) := n2
      _ = (2 : ℚ) ^ ((num.log2 : Int) - den.log2 + 1) * 2 ^ den.log2 := by rw [← this]; congr 2; push_cast; ring
      _ ≤ (2 : ℚ) ^ ((num.log2 : Int) - den.log2 + 1) * den := mul_le_mul_of_nonneg_left d1 (by positivity)
  have test : den * pow2 ((num.log2 : Int) - den.log2) ≤ num * pow2 (-((num.log2 : Int) - den.log2)) ↔
      (2 : ℚ) ^ ((num.log2 : Int) - den.log2) ≤ (num : ℚ) / den := by
    have hp : (0 : ℚ) < (pow2 (-((num.log2 : Int) - den.log2)) : Nat) := by exact_mod_cast pow2_pos _
    rw [← pow2_div, div_le_div_iff₀ hp hd', mul_comm (_ : ℚ) (den : ℚ)]
    exact_mod_cast Iff.rfl
  unfold floorLog2
  simp only
  split
  · next h => exact ⟨test.1 h, high⟩
  · next h =>
    rw [test, not_le] at h
    exact ⟨low, by rw [sub_add_cancel]; exact h⟩

/-- The three fields of a pattern put together from a sign and 63 further bits. -/
theorem fields_of_pattern (neg : Bool) (n : Nat) :
    BitVec.getLsbD (w := 64) (BitVec.ofBool neg ++ BitVec.ofNat 63 n) 63 = neg ∧
      (BitVec.extractLsb' (n := 64) 52 11 (BitVec.ofBool neg ++ BitVec.ofNat 63 n)).toNat = n / 2 ^ 52 % 2 ^ 11 ∧
      (BitVec.extractLsb' (n := 64) 0 52 (BitVec.ofBool neg ++ BitVec.ofNat 63 n)).toNat = n % 2 ^ 52 := by
  have bit : ∀ i, BitVec.getLsbD (w := 64) (BitVec.ofBool neg ++ BitVec.ofNat 63 n) i =
      if i < 63 then (BitVec.ofNat 63 n).getLsbD i else (BitVec.ofBool neg).getLsbD (i - 63) :=
    fun i => BitVec.getLsbD_append
  refine ⟨by rw [bit]; simp, ?_, ?_⟩ <;> apply Nat.eq_of_testBit_eq <;> intro i <;>
    rw [BitVec.testBit_toNat, BitVec.getLsbD_extractLsb', bit, Nat.testBit_mod_two_pow]
  · rw [Nat.testBit_div_two_pow]
    by_cases h : i < 11
    · rw [if_pos (by omega), BitVec.getLsbD_ofNat]
      rw [Nat.add_comm i 52]
      simp [h, show 52 + i < 63 by omega]
    · simp [h]
  · by_cases h : i < 52
    · rw [if_pos (by omega), BitVec.getLsbD_ofNat]
      simp [h, show i < 63 by omega]
    · simp [h]

/-- The pattern of a rounded datum stands for the datum. -/
theorem ofBits_bits64 (neg : Bool) {m : Nat} {q : Int} (nanBits : BitVec 64) (h1 : -1074 ≤ q) (h2 : q ≤ 971)
    (h3 : m < 2 ^ 53) (h4 : q = -1074 ∨ 2 ^ 52 ≤ m) :
    F64.ofBits (bits64 nanBits (.fin neg m q)) = .fin neg m q := by
  obtain ⟨k, rfl⟩ : ∃ k : Nat, q = (k : Int) - 1074 := ⟨(q + 1074).toNat, by omega⟩
  obtain ⟨f1, f2, f3⟩ := fields_of_pattern neg (k * 2 ^ 52 + m)
  have hk : ((k : Int) - 1074 + 1074).toNat = k := by omega
  unfold F64.ofBits bits64
  simp only [hk, f1, f2, f3]
  by_cases hm : m < 2 ^ 52
  · have hk0 : k = 0 := by omega
    subst hk0
    rw [if_neg (by omega), if_pos (by omega)]
    congr 1
    omega
  · rw [if_neg (by omega), if_neg (by omega)]
    congr 1 <;> omega

/-- An infinity's pattern stands for it. -/
@[simp] theorem ofBits_bits64_inf (neg : Bool) (nanBits : BitVec 64) :
    F64.ofBits (bits64 nanBits (.inf neg)) = .inf neg := by
  cases neg <;> (simp only [bits64]; decide)

/-- The sign bit of an infinity's pattern. -/
theorem sign_bits64_inf (neg : Bool) (nanBits : BitVec 64) : (bits64 nanBits (.inf neg)).getLsbD 63 = neg := by
  cases neg <;> (simp only [bits64]; decide)

/-- The sign bit of a finite datum's pattern, a zero's too. -/
theorem sign_bits64_fin (neg : Bool) (sig : Nat) (exp : Int) (nanBits : BitVec 64) :
    (bits64 nanBits (.fin neg sig exp)).getLsbD 63 = neg := (fields_of_pattern neg _).1

/-- A rounded datum is an infinity or a finite datum of the sign given, a zero too. -/
theorem roundF64_cases (neg : Bool) (num den : Nat) (exp : Int) :
    roundF64 neg num den exp = .inf neg ∨ ∃ sig e, roundF64 neg num den exp = .fin neg sig e := by
  unfold roundF64
  split
  · exact .inr ⟨_, _, rfl⟩
  · simp only
    split
    · exact .inl rfl
    · exact .inr ⟨_, _, rfl⟩

/-- The sign bit of a rounded datum's pattern is the sign given. -/
theorem sign_roundF64 (neg : Bool) (num den : Nat) (exp : Int) (nanBits : BitVec 64) :
    (bits64 nanBits (roundF64 neg num den exp)).getLsbD 63 = neg := by
  obtain h | ⟨_, _, h⟩ := roundF64_cases neg num den exp <;> rw [h]
  · exact sign_bits64_inf neg nanBits
  · exact sign_bits64_fin neg _ _ nanBits

/-- A finite pattern stands for a finite datum of its sign bit, with a significand below `2^53` and an exponent between
the subnormals' and the largest. -/
theorem ofBits_finite {b : BitVec 64} (h : (F64.ofBits b).isFinite = true) :
    ∃ sig exp, F64.ofBits b = .fin (b.getLsbD 63) sig exp ∧ sig < 2 ^ 53 ∧ -1074 ≤ exp ∧ exp ≤ 971 := by
  have h1 := (b.extractLsb' 52 11).isLt
  have h2 := (b.extractLsb' 0 52).isLt
  unfold F64.ofBits at h ⊢
  simp only at h ⊢
  split
  · next h0 => rw [if_pos h0] at h; split at h <;> cases h
  · split <;> exact ⟨_, _, rfl, by omega, by omega, by omega⟩

end Sys2Proof.Laws
end

