-- ==== Sys2Proof/Laws/State.lean ====
section
/-! SUPPORT. One lemma per field of State per update: what the field reads as after it, and that every other field is
unchanged. With these no later proof unfolds a record update. -/

namespace Sys2Proof.Laws

open Sys2Proof.Machine

variable (s : State)

/-! ### `State.setIdxOut` -/

@[simp] theorem setIdxOut_idxOut (v : Byte) : (s.setIdxOut v).idxOut = v := rfl
@[simp] theorem setIdxOut_idxIn (v : Byte) : (s.setIdxOut v).idxIn = s.idxIn := rfl
@[simp] theorem setIdxOut_outputs (v : Byte) : (s.setIdxOut v).outputs = s.outputs := rfl
@[simp] theorem setIdxOut_inputs (v : Byte) : (s.setIdxOut v).inputs = s.inputs := rfl
@[simp] theorem setIdxOut_analogScale (v : Byte) : (s.setIdxOut v).analogScale = s.analogScale := rfl
@[simp] theorem setIdxOut_table (v : Byte) : (s.setIdxOut v).table = s.table := rfl
@[simp] theorem setIdxOut_status (v : Byte) : (s.setIdxOut v).status = s.status := rfl
@[simp] theorem setIdxOut_senderr (v : Byte) : (s.setIdxOut v).senderr = s.senderr := rfl
@[simp] theorem setIdxOut_rdata (v : Byte) : (s.setIdxOut v).rdata = s.rdata := rfl
@[simp] theorem setIdxOut_txValid (v : Byte) : (s.setIdxOut v).txValid = s.txValid := rfl
@[simp] theorem setIdxOut_txData (v : Byte) : (s.setIdxOut v).txData = s.txData := rfl
@[simp] theorem setIdxOut_program (v : Byte) : (s.setIdxOut v).program = s.program := rfl
@[simp] theorem setIdxOut_pc (v : Byte) : (s.setIdxOut v).pc = s.pc := rfl
@[simp] theorem setIdxOut_resetAt (v : Byte) : (s.setIdxOut v).resetAt = s.resetAt := rfl
@[simp] theorem setIdxOut_sendAnswers (v : Byte) : (s.setIdxOut v).sendAnswers = s.sendAnswers := rfl
@[simp] theorem setIdxOut_sendDraws (v : Byte) : (s.setIdxOut v).sendDraws = s.sendDraws := rfl
@[simp] theorem setIdxOut_rxAnswers (v : Byte) : (s.setIdxOut v).rxAnswers = s.rxAnswers := rfl
@[simp] theorem setIdxOut_rxDraws (v : Byte) : (s.setIdxOut v).rxDraws = s.rxDraws := rfl

/-! ### `State.setIdxIn` -/

@[simp] theorem setIdxIn_idxOut (v : Byte) : (s.setIdxIn v).idxOut = s.idxOut := rfl
@[simp] theorem setIdxIn_idxIn (v : Byte) : (s.setIdxIn v).idxIn = v := rfl
@[simp] theorem setIdxIn_outputs (v : Byte) : (s.setIdxIn v).outputs = s.outputs := rfl
@[simp] theorem setIdxIn_inputs (v : Byte) : (s.setIdxIn v).inputs = s.inputs := rfl
@[simp] theorem setIdxIn_analogScale (v : Byte) : (s.setIdxIn v).analogScale = s.analogScale := rfl
@[simp] theorem setIdxIn_table (v : Byte) : (s.setIdxIn v).table = s.table := rfl
@[simp] theorem setIdxIn_status (v : Byte) : (s.setIdxIn v).status = s.status := rfl
@[simp] theorem setIdxIn_senderr (v : Byte) : (s.setIdxIn v).senderr = s.senderr := rfl
@[simp] theorem setIdxIn_rdata (v : Byte) : (s.setIdxIn v).rdata = s.rdata := rfl
@[simp] theorem setIdxIn_txValid (v : Byte) : (s.setIdxIn v).txValid = s.txValid := rfl
@[simp] theorem setIdxIn_txData (v : Byte) : (s.setIdxIn v).txData = s.txData := rfl
@[simp] theorem setIdxIn_program (v : Byte) : (s.setIdxIn v).program = s.program := rfl
@[simp] theorem setIdxIn_pc (v : Byte) : (s.setIdxIn v).pc = s.pc := rfl
@[simp] theorem setIdxIn_resetAt (v : Byte) : (s.setIdxIn v).resetAt = s.resetAt := rfl
@[simp] theorem setIdxIn_sendAnswers (v : Byte) : (s.setIdxIn v).sendAnswers = s.sendAnswers := rfl
@[simp] theorem setIdxIn_sendDraws (v : Byte) : (s.setIdxIn v).sendDraws = s.sendDraws := rfl
@[simp] theorem setIdxIn_rxAnswers (v : Byte) : (s.setIdxIn v).rxAnswers = s.rxAnswers := rfl
@[simp] theorem setIdxIn_rxDraws (v : Byte) : (s.setIdxIn v).rxDraws = s.rxDraws := rfl

/-! ### `State.setOutputs` -/

@[simp] theorem setOutputs_idxOut (v : BitVec 16) : (s.setOutputs v).idxOut = s.idxOut := rfl
@[simp] theorem setOutputs_idxIn (v : BitVec 16) : (s.setOutputs v).idxIn = s.idxIn := rfl
@[simp] theorem setOutputs_outputs (v : BitVec 16) : (s.setOutputs v).outputs = v := rfl
@[simp] theorem setOutputs_inputs (v : BitVec 16) : (s.setOutputs v).inputs = s.inputs := rfl
@[simp] theorem setOutputs_analogScale (v : BitVec 16) : (s.setOutputs v).analogScale = s.analogScale := rfl
@[simp] theorem setOutputs_table (v : BitVec 16) : (s.setOutputs v).table = s.table := rfl
@[simp] theorem setOutputs_status (v : BitVec 16) : (s.setOutputs v).status = s.status := rfl
@[simp] theorem setOutputs_senderr (v : BitVec 16) : (s.setOutputs v).senderr = s.senderr := rfl
@[simp] theorem setOutputs_rdata (v : BitVec 16) : (s.setOutputs v).rdata = s.rdata := rfl
@[simp] theorem setOutputs_txValid (v : BitVec 16) : (s.setOutputs v).txValid = s.txValid := rfl
@[simp] theorem setOutputs_txData (v : BitVec 16) : (s.setOutputs v).txData = s.txData := rfl
@[simp] theorem setOutputs_program (v : BitVec 16) : (s.setOutputs v).program = s.program := rfl
@[simp] theorem setOutputs_pc (v : BitVec 16) : (s.setOutputs v).pc = s.pc := rfl
@[simp] theorem setOutputs_resetAt (v : BitVec 16) : (s.setOutputs v).resetAt = s.resetAt := rfl
@[simp] theorem setOutputs_sendAnswers (v : BitVec 16) : (s.setOutputs v).sendAnswers = s.sendAnswers := rfl
@[simp] theorem setOutputs_sendDraws (v : BitVec 16) : (s.setOutputs v).sendDraws = s.sendDraws := rfl
@[simp] theorem setOutputs_rxAnswers (v : BitVec 16) : (s.setOutputs v).rxAnswers = s.rxAnswers := rfl
@[simp] theorem setOutputs_rxDraws (v : BitVec 16) : (s.setOutputs v).rxDraws = s.rxDraws := rfl

/-! ### `State.setInputs` -/

@[simp] theorem setInputs_idxOut (v : BitVec 32) : (s.setInputs v).idxOut = s.idxOut := rfl
@[simp] theorem setInputs_idxIn (v : BitVec 32) : (s.setInputs v).idxIn = s.idxIn := rfl
@[simp] theorem setInputs_outputs (v : BitVec 32) : (s.setInputs v).outputs = s.outputs := rfl
@[simp] theorem setInputs_inputs (v : BitVec 32) : (s.setInputs v).inputs = v := rfl
@[simp] theorem setInputs_analogScale (v : BitVec 32) : (s.setInputs v).analogScale = s.analogScale := rfl
@[simp] theorem setInputs_table (v : BitVec 32) : (s.setInputs v).table = s.table := rfl
@[simp] theorem setInputs_status (v : BitVec 32) : (s.setInputs v).status = s.status := rfl
@[simp] theorem setInputs_senderr (v : BitVec 32) : (s.setInputs v).senderr = s.senderr := rfl
@[simp] theorem setInputs_rdata (v : BitVec 32) : (s.setInputs v).rdata = s.rdata := rfl
@[simp] theorem setInputs_txValid (v : BitVec 32) : (s.setInputs v).txValid = s.txValid := rfl
@[simp] theorem setInputs_txData (v : BitVec 32) : (s.setInputs v).txData = s.txData := rfl
@[simp] theorem setInputs_program (v : BitVec 32) : (s.setInputs v).program = s.program := rfl
@[simp] theorem setInputs_pc (v : BitVec 32) : (s.setInputs v).pc = s.pc := rfl
@[simp] theorem setInputs_resetAt (v : BitVec 32) : (s.setInputs v).resetAt = s.resetAt := rfl
@[simp] theorem setInputs_sendAnswers (v : BitVec 32) : (s.setInputs v).sendAnswers = s.sendAnswers := rfl
@[simp] theorem setInputs_sendDraws (v : BitVec 32) : (s.setInputs v).sendDraws = s.sendDraws := rfl
@[simp] theorem setInputs_rxAnswers (v : BitVec 32) : (s.setInputs v).rxAnswers = s.rxAnswers := rfl
@[simp] theorem setInputs_rxDraws (v : BitVec 32) : (s.setInputs v).rxDraws = s.rxDraws := rfl

/-! ### `State.setAnalogScale` -/

@[simp] theorem setAnalogScale_idxOut (v : BitVec 64) : (s.setAnalogScale v).idxOut = s.idxOut := rfl
@[simp] theorem setAnalogScale_idxIn (v : BitVec 64) : (s.setAnalogScale v).idxIn = s.idxIn := rfl
@[simp] theorem setAnalogScale_outputs (v : BitVec 64) : (s.setAnalogScale v).outputs = s.outputs := rfl
@[simp] theorem setAnalogScale_inputs (v : BitVec 64) : (s.setAnalogScale v).inputs = s.inputs := rfl
@[simp] theorem setAnalogScale_analogScale (v : BitVec 64) : (s.setAnalogScale v).analogScale = v := rfl
@[simp] theorem setAnalogScale_table (v : BitVec 64) : (s.setAnalogScale v).table = s.table := rfl
@[simp] theorem setAnalogScale_status (v : BitVec 64) : (s.setAnalogScale v).status = s.status := rfl
@[simp] theorem setAnalogScale_senderr (v : BitVec 64) : (s.setAnalogScale v).senderr = s.senderr := rfl
@[simp] theorem setAnalogScale_rdata (v : BitVec 64) : (s.setAnalogScale v).rdata = s.rdata := rfl
@[simp] theorem setAnalogScale_txValid (v : BitVec 64) : (s.setAnalogScale v).txValid = s.txValid := rfl
@[simp] theorem setAnalogScale_txData (v : BitVec 64) : (s.setAnalogScale v).txData = s.txData := rfl
@[simp] theorem setAnalogScale_program (v : BitVec 64) : (s.setAnalogScale v).program = s.program := rfl
@[simp] theorem setAnalogScale_pc (v : BitVec 64) : (s.setAnalogScale v).pc = s.pc := rfl
@[simp] theorem setAnalogScale_resetAt (v : BitVec 64) : (s.setAnalogScale v).resetAt = s.resetAt := rfl
@[simp] theorem setAnalogScale_sendAnswers (v : BitVec 64) : (s.setAnalogScale v).sendAnswers = s.sendAnswers := rfl
@[simp] theorem setAnalogScale_sendDraws (v : BitVec 64) : (s.setAnalogScale v).sendDraws = s.sendDraws := rfl
@[simp] theorem setAnalogScale_rxAnswers (v : BitVec 64) : (s.setAnalogScale v).rxAnswers = s.rxAnswers := rfl
@[simp] theorem setAnalogScale_rxDraws (v : BitVec 64) : (s.setAnalogScale v).rxDraws = s.rxDraws := rfl

/-! ### `State.report` -/

@[simp] theorem report_idxOut (st : Status) (d : BitVec 64) : (s.report st d).idxOut = s.idxOut := rfl
@[simp] theorem report_idxIn (st : Status) (d : BitVec 64) : (s.report st d).idxIn = s.idxIn := rfl
@[simp] theorem report_outputs (st : Status) (d : BitVec 64) : (s.report st d).outputs = s.outputs := rfl
@[simp] theorem report_inputs (st : Status) (d : BitVec 64) : (s.report st d).inputs = s.inputs := rfl
@[simp] theorem report_analogScale (st : Status) (d : BitVec 64) : (s.report st d).analogScale = s.analogScale := rfl
@[simp] theorem report_table (st : Status) (d : BitVec 64) : (s.report st d).table = s.table := rfl
@[simp] theorem report_status (st : Status) (d : BitVec 64) : (s.report st d).status = st := rfl
@[simp] theorem report_senderr (st : Status) (d : BitVec 64) : (s.report st d).senderr = false := rfl
@[simp] theorem report_rdata (st : Status) (d : BitVec 64) : (s.report st d).rdata = d := rfl
@[simp] theorem report_txValid (st : Status) (d : BitVec 64) : (s.report st d).txValid = false := rfl
@[simp] theorem report_txData (st : Status) (d : BitVec 64) : (s.report st d).txData = 0 := rfl
@[simp] theorem report_program (st : Status) (d : BitVec 64) : (s.report st d).program = s.program := rfl
@[simp] theorem report_pc (st : Status) (d : BitVec 64) : (s.report st d).pc = s.pc := rfl
@[simp] theorem report_resetAt (st : Status) (d : BitVec 64) : (s.report st d).resetAt = s.resetAt := rfl
@[simp] theorem report_sendAnswers (st : Status) (d : BitVec 64) : (s.report st d).sendAnswers = s.sendAnswers := rfl
@[simp] theorem report_sendDraws (st : Status) (d : BitVec 64) : (s.report st d).sendDraws = s.sendDraws := rfl
@[simp] theorem report_rxAnswers (st : Status) (d : BitVec 64) : (s.report st d).rxAnswers = s.rxAnswers := rfl
@[simp] theorem report_rxDraws (st : Status) (d : BitVec 64) : (s.report st d).rxDraws = s.rxDraws := rfl

/-! ### `State.emitTx` -/

@[simp] theorem emitTx_idxOut (f : BitVec 24) : (s.emitTx f).idxOut = s.idxOut := rfl
@[simp] theorem emitTx_idxIn (f : BitVec 24) : (s.emitTx f).idxIn = s.idxIn := rfl
@[simp] theorem emitTx_outputs (f : BitVec 24) : (s.emitTx f).outputs = s.outputs := rfl
@[simp] theorem emitTx_inputs (f : BitVec 24) : (s.emitTx f).inputs = s.inputs := rfl
@[simp] theorem emitTx_analogScale (f : BitVec 24) : (s.emitTx f).analogScale = s.analogScale := rfl
@[simp] theorem emitTx_table (f : BitVec 24) : (s.emitTx f).table = s.table := rfl
@[simp] theorem emitTx_status (f : BitVec 24) : (s.emitTx f).status = s.status := rfl
@[simp] theorem emitTx_senderr (f : BitVec 24) : (s.emitTx f).senderr = s.senderr := rfl
@[simp] theorem emitTx_rdata (f : BitVec 24) : (s.emitTx f).rdata = s.rdata := rfl
@[simp] theorem emitTx_txValid (f : BitVec 24) : (s.emitTx f).txValid = true := rfl
@[simp] theorem emitTx_txData (f : BitVec 24) : (s.emitTx f).txData = f := rfl
@[simp] theorem emitTx_program (f : BitVec 24) : (s.emitTx f).program = s.program := rfl
@[simp] theorem emitTx_pc (f : BitVec 24) : (s.emitTx f).pc = s.pc := rfl
@[simp] theorem emitTx_resetAt (f : BitVec 24) : (s.emitTx f).resetAt = s.resetAt := rfl
@[simp] theorem emitTx_sendAnswers (f : BitVec 24) : (s.emitTx f).sendAnswers = s.sendAnswers := rfl
@[simp] theorem emitTx_sendDraws (f : BitVec 24) : (s.emitTx f).sendDraws = s.sendDraws := rfl
@[simp] theorem emitTx_rxAnswers (f : BitVec 24) : (s.emitTx f).rxAnswers = s.rxAnswers := rfl
@[simp] theorem emitTx_rxDraws (f : BitVec 24) : (s.emitTx f).rxDraws = s.rxDraws := rfl

/-! ### `State.recordSend` -/

@[simp] theorem recordSend_idxOut (o : SendOutcome) : (s.recordSend o).idxOut = s.idxOut := rfl
@[simp] theorem recordSend_idxIn (o : SendOutcome) : (s.recordSend o).idxIn = s.idxIn := rfl
@[simp] theorem recordSend_outputs (o : SendOutcome) : (s.recordSend o).outputs = s.outputs := rfl
@[simp] theorem recordSend_inputs (o : SendOutcome) : (s.recordSend o).inputs = s.inputs := rfl
@[simp] theorem recordSend_analogScale (o : SendOutcome) : (s.recordSend o).analogScale = s.analogScale := rfl
@[simp] theorem recordSend_table (o : SendOutcome) : (s.recordSend o).table = s.table := rfl
@[simp] theorem recordSend_status (o : SendOutcome) : (s.recordSend o).status = s.status := rfl
@[simp] theorem recordSend_senderr (o : SendOutcome) : (s.recordSend o).senderr = (o == .transportError) := rfl
@[simp] theorem recordSend_rdata (o : SendOutcome) : (s.recordSend o).rdata = s.rdata := rfl
@[simp] theorem recordSend_txValid (o : SendOutcome) : (s.recordSend o).txValid = s.txValid := rfl
@[simp] theorem recordSend_txData (o : SendOutcome) : (s.recordSend o).txData = s.txData := rfl
@[simp] theorem recordSend_program (o : SendOutcome) : (s.recordSend o).program = s.program := rfl
@[simp] theorem recordSend_pc (o : SendOutcome) : (s.recordSend o).pc = s.pc := rfl
@[simp] theorem recordSend_resetAt (o : SendOutcome) : (s.recordSend o).resetAt = s.resetAt := rfl
@[simp] theorem recordSend_sendAnswers (o : SendOutcome) : (s.recordSend o).sendAnswers = s.sendAnswers := rfl
@[simp] theorem recordSend_sendDraws (o : SendOutcome) : (s.recordSend o).sendDraws = s.sendDraws := rfl
@[simp] theorem recordSend_rxAnswers (o : SendOutcome) : (s.recordSend o).rxAnswers = s.rxAnswers := rfl
@[simp] theorem recordSend_rxDraws (o : SendOutcome) : (s.recordSend o).rxDraws = s.rxDraws := rfl

/-! ### `State.consumeSend` -/

@[simp] theorem consumeSend_idxOut : (s.consumeSend).idxOut = s.idxOut := rfl
@[simp] theorem consumeSend_idxIn : (s.consumeSend).idxIn = s.idxIn := rfl
@[simp] theorem consumeSend_outputs : (s.consumeSend).outputs = s.outputs := rfl
@[simp] theorem consumeSend_inputs : (s.consumeSend).inputs = s.inputs := rfl
@[simp] theorem consumeSend_analogScale : (s.consumeSend).analogScale = s.analogScale := rfl
@[simp] theorem consumeSend_table : (s.consumeSend).table = s.table := rfl
@[simp] theorem consumeSend_status : (s.consumeSend).status = s.status := rfl
@[simp] theorem consumeSend_senderr : (s.consumeSend).senderr = s.senderr := rfl
@[simp] theorem consumeSend_rdata : (s.consumeSend).rdata = s.rdata := rfl
@[simp] theorem consumeSend_txValid : (s.consumeSend).txValid = s.txValid := rfl
@[simp] theorem consumeSend_txData : (s.consumeSend).txData = s.txData := rfl
@[simp] theorem consumeSend_program : (s.consumeSend).program = s.program := rfl
@[simp] theorem consumeSend_pc : (s.consumeSend).pc = s.pc := rfl
@[simp] theorem consumeSend_resetAt : (s.consumeSend).resetAt = s.resetAt := rfl
@[simp] theorem consumeSend_sendAnswers : (s.consumeSend).sendAnswers = s.sendAnswers.tail := rfl
@[simp] theorem consumeSend_sendDraws :
    (s.consumeSend).sendDraws = if s.sendAnswers.isEmpty then s.sendDraws + 1 else s.sendDraws :=
    rfl
@[simp] theorem consumeSend_rxAnswers : (s.consumeSend).rxAnswers = s.rxAnswers := rfl
@[simp] theorem consumeSend_rxDraws : (s.consumeSend).rxDraws = s.rxDraws := rfl

/-! ### `State.consumeRx` -/

@[simp] theorem consumeRx_idxOut : (s.consumeRx).idxOut = s.idxOut := rfl
@[simp] theorem consumeRx_idxIn : (s.consumeRx).idxIn = s.idxIn := rfl
@[simp] theorem consumeRx_outputs : (s.consumeRx).outputs = s.outputs := rfl
@[simp] theorem consumeRx_inputs : (s.consumeRx).inputs = s.inputs := rfl
@[simp] theorem consumeRx_analogScale : (s.consumeRx).analogScale = s.analogScale := rfl
@[simp] theorem consumeRx_table : (s.consumeRx).table = s.table := rfl
@[simp] theorem consumeRx_status : (s.consumeRx).status = s.status := rfl
@[simp] theorem consumeRx_senderr : (s.consumeRx).senderr = s.senderr := rfl
@[simp] theorem consumeRx_rdata : (s.consumeRx).rdata = s.rdata := rfl
@[simp] theorem consumeRx_txValid : (s.consumeRx).txValid = s.txValid := rfl
@[simp] theorem consumeRx_txData : (s.consumeRx).txData = s.txData := rfl
@[simp] theorem consumeRx_program : (s.consumeRx).program = s.program := rfl
@[simp] theorem consumeRx_pc : (s.consumeRx).pc = s.pc := rfl
@[simp] theorem consumeRx_resetAt : (s.consumeRx).resetAt = s.resetAt := rfl
@[simp] theorem consumeRx_sendAnswers : (s.consumeRx).sendAnswers = s.sendAnswers := rfl
@[simp] theorem consumeRx_sendDraws : (s.consumeRx).sendDraws = s.sendDraws := rfl
@[simp] theorem consumeRx_rxAnswers : (s.consumeRx).rxAnswers = s.rxAnswers.tail := rfl
@[simp] theorem consumeRx_rxDraws :
    (s.consumeRx).rxDraws = if s.rxAnswers.isEmpty then s.rxDraws + 1 else s.rxDraws :=
    rfl

/-! ### `State.takeReset` -/

@[simp] theorem takeReset_idxOut : (s.takeReset).idxOut = 0x01 := rfl
@[simp] theorem takeReset_idxIn : (s.takeReset).idxIn = 0x01 := rfl
@[simp] theorem takeReset_outputs : (s.takeReset).outputs = 0 := rfl
@[simp] theorem takeReset_inputs : (s.takeReset).inputs = 0 := rfl
@[simp] theorem takeReset_analogScale : (s.takeReset).analogScale = Config.analogScaleReset := rfl
@[simp] theorem takeReset_table : (s.takeReset).table = s.table := rfl
@[simp] theorem takeReset_status : (s.takeReset).status = .ok := rfl
@[simp] theorem takeReset_senderr : (s.takeReset).senderr = false := rfl
@[simp] theorem takeReset_rdata : (s.takeReset).rdata = 0 := rfl
@[simp] theorem takeReset_txValid : (s.takeReset).txValid = false := rfl
@[simp] theorem takeReset_txData : (s.takeReset).txData = 0 := rfl
@[simp] theorem takeReset_program : (s.takeReset).program = s.program := rfl
@[simp] theorem takeReset_pc : (s.takeReset).pc = s.pc := rfl
@[simp] theorem takeReset_resetAt : (s.takeReset).resetAt = s.resetAt.tail := rfl
@[simp] theorem takeReset_sendAnswers : (s.takeReset).sendAnswers = s.sendAnswers := rfl
@[simp] theorem takeReset_sendDraws : (s.takeReset).sendDraws = s.sendDraws := rfl
@[simp] theorem takeReset_rxAnswers : (s.takeReset).rxAnswers = s.rxAnswers := rfl
@[simp] theorem takeReset_rxDraws : (s.takeReset).rxDraws = s.rxDraws := rfl

/-! ### `State.advance` -/

@[simp] theorem advance_idxOut : (s.advance).idxOut = s.idxOut := rfl
@[simp] theorem advance_idxIn : (s.advance).idxIn = s.idxIn := rfl
@[simp] theorem advance_outputs : (s.advance).outputs = s.outputs := rfl
@[simp] theorem advance_inputs : (s.advance).inputs = s.inputs := rfl
@[simp] theorem advance_analogScale : (s.advance).analogScale = s.analogScale := rfl
@[simp] theorem advance_table : (s.advance).table = s.table := rfl
@[simp] theorem advance_status : (s.advance).status = s.status := rfl
@[simp] theorem advance_senderr : (s.advance).senderr = s.senderr := rfl
@[simp] theorem advance_rdata : (s.advance).rdata = s.rdata := rfl
@[simp] theorem advance_txValid : (s.advance).txValid = s.txValid := rfl
@[simp] theorem advance_txData : (s.advance).txData = s.txData := rfl
@[simp] theorem advance_program : (s.advance).program = s.program := rfl
@[simp] theorem advance_pc : (s.advance).pc = s.pc + 1 := rfl
@[simp] theorem advance_resetAt : (s.advance).resetAt = s.resetAt := rfl
@[simp] theorem advance_sendAnswers : (s.advance).sendAnswers = s.sendAnswers := rfl
@[simp] theorem advance_sendDraws : (s.advance).sendDraws = s.sendDraws := rfl
@[simp] theorem advance_rxAnswers : (s.advance).rxAnswers = s.rxAnswers := rfl
@[simp] theorem advance_rxDraws : (s.advance).rxDraws = s.rxDraws := rfl

/-! ### The updates made of others -/

@[simp] theorem raiseBitRange_eq (bit : Nat) : s.raiseBitRange bit = s.report .bitRange (BitVec.ofNat 64 bit) := rfl

@[simp] theorem illegalCommand_eq : s.illegalCommand = s.report .illegalCmd 0 := rfl

@[simp] theorem receive_eq (r : RxResult) :
    s.receive r = ((s.setIdxIn r.idx).setInputs r.inputs).report r.status r.data := rfl

end Sys2Proof.Laws
end

