-- ==== Sys2Proof/Laws/Ops.lean ====
section
/-! SUPPORT. One specification lemma for each shared operation: the cursor update, the packets, the receive step, the
transport's answers, the runner. -/

namespace Sys2Proof.Laws

open Sys2Proof.Machine

/-! ### The cursor update -/

/-- The cursor advances by the payload's sum plus one, wrapping. -/
theorem cursorNext_fst (t : Memory) (idx : Byte) (payload : List Byte) :
    (cursorNext t idx payload).1 = idx + BitVec.ofNat 8 ((payload.map BitVec.toNat).sum + 1) := by
  apply BitVec.eq_of_toNat_eq
  simp [cursorNext, rawIndex, BitVec.toNat_add]

/-- The checksum is the table's entry at the new cursor value. -/
theorem cursorNext_snd (t : Memory) (idx : Byte) (payload : List Byte) :
    (cursorNext t idx payload).2 = t.read (cursorNext t idx payload).1 := rfl

theorem ofNat_toNat_add (a : Byte) (n : Nat) : BitVec.ofNat 8 (a.toNat + n) = a + BitVec.ofNat 8 n := by
  apply BitVec.eq_of_toNat_eq
  simp [BitVec.toNat_add]

/-- The cursor after a two-byte payload. -/
theorem cursorNext_two (t : Memory) (idx a b : Byte) : (cursorNext t idx [a, b]).1 = idx + (a + (b + 1)) := by
  rw [cursorNext_fst]
  simp [Nat.add_assoc, ofNat_toNat_add]

/-- The cursor after a four-byte payload. -/
theorem cursorNext_four (t : Memory) (idx a b c d : Byte) :
    (cursorNext t idx [a, b, c, d]).1 = idx + (a + (b + (c + (d + 1)))) := by
  rw [cursorNext_fst]
  simp [Nat.add_assoc, ofNat_toNat_add]

/-- Tables that read alike give the same update. -/
theorem cursorNext_congr {t u : Memory} (h : ∀ i, t.read i = u.read i) (idx : Byte) (payload : List Byte) :
    cursorNext t idx payload = cursorNext u idx payload := by
  simp [cursorNext, h]

/-! ### Packets -/

theorem outboundPacket_fst (t : Memory) (idx : Byte) (o : BitVec 16) :
    (outboundPacket t idx o).1 = (cursorNext t idx [outputsLow o, outputsHigh o]).1 := rfl

theorem outboundPacket_snd (t : Memory) (idx : Byte) (o : BitVec 16) :
    (outboundPacket t idx o).2 = txFrame (outputsLow o) (outputsHigh o) (t.read (outboundPacket t idx o).1) := rfl

/-- The frame is the checksum over the whole of `OUTPUTS`. -/
theorem txFrame_outputs (o : BitVec 16) (ck : Byte) : txFrame (outputsLow o) (outputsHigh o) ck = ck ++ o := by
  apply BitVec.eq_of_getLsbD_eq
  intro i hi
  simp only [txFrame, outputsLow, outputsHigh, BitVec.getLsbD_append, BitVec.getLsbD_extractLsb']
  by_cases h1 : i < 8
  · simp [h1, show i < 16 by omega]
  · by_cases h2 : i < 16
    · simp [h1, h2, show i - 8 < 8 by omega, show 8 + (i - 8) = i by omega]
    · simp [h2]

/-- One bit of a frame. -/
theorem getLsbD_txFrame (b0 b1 ck : Byte) (i : Nat) :
    (txFrame b0 b1 ck).getLsbD i =
      if i < 8 then b0.getLsbD i else if i < 16 then b1.getLsbD (i - 8) else ck.getLsbD (i - 16) := by
  refine (BitVec.getLsbD_append (x := ck) (y := b1 ++ b0)).trans ?_
  simp only [BitVec.getLsbD_append]
  by_cases h1 : i < 8
  · simp [h1, show i < 16 by omega]
  · by_cases h2 : i < 16 <;> simp [h1, h2]

/-- The three bytes of a frame. -/
theorem txFrame_bytes (b0 b1 ck : Byte) :
    (txFrame b0 b1 ck).extractLsb' 0 8 = b0 ∧ (txFrame b0 b1 ck).extractLsb' 8 8 = b1 ∧
      (txFrame b0 b1 ck).extractLsb' 16 8 = ck := by
  refine ⟨?_, ?_, ?_⟩ <;> apply BitVec.eq_of_getLsbD_eq <;> intro i hi <;>
    rw [BitVec.getLsbD_extractLsb', getLsbD_txFrame]
  · simp [hi]
  · simp [hi, show 8 + i < 16 by omega]
  · simp [hi, show ¬ 16 + i < 8 by omega]

/-- One bit of an input word. -/
theorem getLsbD_inputWord (b0 b1 b2 b3 : Byte) (i : Nat) :
    (inputWord b0 b1 b2 b3).getLsbD i =
      if i < 8 then b0.getLsbD i else if i < 16 then b1.getLsbD (i - 8)
      else if i < 24 then b2.getLsbD (i - 16) else b3.getLsbD (i - 24) := by
  refine (BitVec.getLsbD_append (x := b3) (y := b2 ++ (b1 ++ b0))).trans ?_
  simp only [BitVec.getLsbD_append]
  by_cases h1 : i < 8
  · simp [h1, show i < 16 by omega, show i < 24 by omega]
  · by_cases h2 : i < 16
    · simp [h1, h2, show i < 24 by omega]
    · by_cases h3 : i < 24 <;> simp [h1, h2, h3]

/-- One bit of the receive port's data. -/
theorem getLsbD_rxDataOfBytes (b0 b1 b2 b3 b4 : Byte) (i : Nat) :
    (rxDataOfBytes b0 b1 b2 b3 b4).getLsbD i =
      if i < 32 then (inputWord b0 b1 b2 b3).getLsbD i else b4.getLsbD (i - 32) :=
  BitVec.getLsbD_append (x := b4) (y := b3 ++ (b2 ++ (b1 ++ b0)))

/-- An input word as a number. -/
theorem toNat_inputWord (b0 b1 b2 b3 : Byte) :
    (inputWord b0 b1 b2 b3).toNat =
      b3.toNat * 2 ^ 24 + b2.toNat * 2 ^ 16 + b1.toNat * 2 ^ 8 + b0.toNat := by
  have h0 := b0.isLt
  have h1 := b1.isLt
  have h2 := b2.isLt
  have join : ∀ (hi lo k : Nat), lo < 2 ^ k → hi <<< k ||| lo = hi * 2 ^ k + lo := fun hi lo k h => by
    rw [← Nat.shiftLeft_add_eq_or_of_lt h, Nat.shiftLeft_eq]
  refine (BitVec.toNat_append ..).trans ?_
  rw [BitVec.toNat_append, BitVec.toNat_append, join _ _ 8 h0, join _ _ (8 + 8) (by omega),
    join _ _ (8 + (8 + 8)) (by omega)]
  omega

/-- A word put together from its own bytes is the word. -/
theorem inputWord_bytes (x : BitVec 32) :
    inputWord (inputByte x 0) (inputByte x 1) (inputByte x 2) (inputByte x 3) = x := by
  apply BitVec.eq_of_getLsbD_eq
  intro i hi
  rw [getLsbD_inputWord]
  simp only [inputByte, BitVec.getLsbD_extractLsb']
  by_cases h1 : i < 8
  · simp [h1]
  · by_cases h2 : i < 16
    · simp [h1, h2, show i - 8 < 8 by omega, show 8 + (i - 8) = i by omega]
    · by_cases h3 : i < 24
      · simp [h1, h2, h3, show i - 16 < 8 by omega, show 16 + (i - 16) = i by omega]
      · simp [h1, h2, h3, show i - 24 < 8 by omega, show 24 + (i - 24) = i by omega]

/-! ### The receive step -/

@[simp] theorem rxStep_timeout (t : Memory) (idx : Byte) (inp : BitVec 32) :
    rxStep t idx inp .timeout = ⟨idx, inp, .timeout, 0⟩ := rfl

@[simp] theorem rxStep_transportError (t : Memory) (idx : Byte) (inp : BitVec 32) :
    rxStep t idx inp .transportError = ⟨idx, inp, .xerr, 0⟩ := rfl

theorem rxStep_malformed (t : Memory) (idx : Byte) (inp : BitVec 32) {d : List Byte} (h : d.length ≠ 5) :
    rxStep t idx inp (.datagram d) = ⟨idx, inp, .malformed, BitVec.ofNat 64 d.length⟩ := by
  match d, h with
  | [], _ => rfl
  | [_], _ => rfl
  | [_, _], _ => rfl
  | [_, _, _], _ => rfl
  | [_, _, _, _], _ => rfl
  | [_, _, _, _, _], h => exact absurd rfl h
  | _ :: _ :: _ :: _ :: _ :: _ :: _, _ => rfl

theorem rxStep_five (t : Memory) (idx : Byte) (inp : BitVec 32) (b0 b1 b2 b3 c : Byte) :
    rxStep t idx inp (.datagram [b0, b1, b2, b3, c]) =
      if (cursorNext t idx [b3, b2, b1, b0]).2 = c then
        ⟨(cursorNext t idx [b3, b2, b1, b0]).1, inputWord b0 b1 b2 b3, .ok, zext64 (inputWord b0 b1 b2 b3)⟩
      else
        ⟨(cursorNext t idx [b3, b2, b1, b0]).1, inp, .mismatch, mismatchData (cursorNext t idx [b3, b2, b1, b0]).2 c⟩ :=
  rfl

/-- Every receive event is one of these five, and the receive step answers accordingly. -/
theorem rxStep_cases (t : Memory) (idx : Byte) (inp : BitVec 32) (ev : RxEvent) :
    (ev = .timeout ∧ rxStep t idx inp ev = ⟨idx, inp, .timeout, 0⟩) ∨
    (ev = .transportError ∧ rxStep t idx inp ev = ⟨idx, inp, .xerr, 0⟩) ∨
    (∃ d : List Byte, ev = .datagram d ∧ d.length ≠ 5 ∧
      rxStep t idx inp ev = ⟨idx, inp, .malformed, BitVec.ofNat 64 d.length⟩) ∨
    (∃ b0 b1 b2 b3 c, ev = .datagram [b0, b1, b2, b3, c] ∧ (cursorNext t idx [b3, b2, b1, b0]).2 = c ∧
      rxStep t idx inp ev =
        ⟨(cursorNext t idx [b3, b2, b1, b0]).1, inputWord b0 b1 b2 b3, .ok, zext64 (inputWord b0 b1 b2 b3)⟩) ∨
    (∃ b0 b1 b2 b3 c, ev = .datagram [b0, b1, b2, b3, c] ∧ (cursorNext t idx [b3, b2, b1, b0]).2 ≠ c ∧
      rxStep t idx inp ev = ⟨(cursorNext t idx [b3, b2, b1, b0]).1, inp, .mismatch,
        mismatchData (cursorNext t idx [b3, b2, b1, b0]).2 c⟩) := by
  cases ev with
  | timeout => exact .inl ⟨rfl, rfl⟩
  | transportError => exact .inr (.inl ⟨rfl, rfl⟩)
  | datagram d =>
    by_cases h : d.length = 5
    · obtain ⟨b0, b1, b2, b3, c, rfl⟩ : ∃ b0 b1 b2 b3 c, d = [b0, b1, b2, b3, c] := by
        match d, h with
        | [b0, b1, b2, b3, c], _ => exact ⟨b0, b1, b2, b3, c, rfl⟩
      by_cases hc : (cursorNext t idx [b3, b2, b1, b0]).2 = c
      · exact .inr (.inr (.inr (.inl ⟨b0, b1, b2, b3, c, rfl, hc, by rw [rxStep_five, if_pos hc]⟩)))
      · exact .inr (.inr (.inr (.inr ⟨b0, b1, b2, b3, c, rfl, hc, by rw [rxStep_five, if_neg hc]⟩)))
    · exact .inr (.inr (.inl ⟨d, rfl, h, rxStep_malformed t idx inp h⟩))

/-! ### The transport's answers -/

theorem sendOutcome_listed {s : State} {o : SendOutcome} {rest : List SendOutcome} (h : s.sendAnswers = o :: rest) :
    s.sendOutcome = o ∧ s.consumeSend = { s with sendAnswers := rest } := by
  simp [State.sendOutcome, State.consumeSend, h]

theorem rxEvent_listed {s : State} {ev : RxEvent} {rest : List RxEvent} (h : s.rxAnswers = ev :: rest) :
    s.rxEvent = ev ∧ s.consumeRx = { s with rxAnswers := rest } := by
  simp [State.rxEvent, State.consumeRx, h]

/-! ### Reset and the runner -/

theorem resetDue_iff (s : State) : s.resetDue = true ↔ ∃ p rest, s.resetAt = p :: rest ∧ p ≤ s.pc := by
  unfold State.resetDue
  split <;> simp_all

theorem currentWord_eq_none_iff (s : State) : s.currentWord = none ↔ s.program.length ≤ s.pc := by
  simp [State.currentWord]

theorem currentWord_eq_some_iff (s : State) (w : CommandWord) :
    s.currentWord = some w ↔ ∃ h : s.pc < s.program.length, s.program[s.pc] = w := by
  simp [State.currentWord, List.getElem?_eq_some_iff]

/-- The word placed stands at its position. -/
theorem placeWord_get (w : CommandWord) (n : Nat) (l : List CommandWord) : (placeWord w n l)[n]? = some w := by
  induction n generalizing l with
  | zero => cases l <;> rfl
  | succ n ih => cases l <;> simpa [placeWord] using ih _

end Sys2Proof.Laws
end

