-- ==== Sys2Proof/Laws/PerInstr.lean ====
section
/-! SUPPORT. The per-command family `TableRow`: every command's word has the fixed bits of the command's own row of
spec/opcode_table.json. One lemma per constructor of `Instr`. -/

namespace Sys2Proof.Laws.TableRow

/-- The command's word matches the row that the command's constructor stands for. -/
def Statement (i : Instr) : Prop := ∃ r, opcodeTable[i.rowIndex]? = some r ∧ r.matches (encode i) = true

/-- Masking a word masks its opcode and its argument. -/
theorem matches_append {opc : Byte} {arg : BitVec 64} {m : String} {p k : CommandWord}
    (h1 : opc &&& opcodeOf k = opcodeOf p) (h2 : arg &&& argOf k = argOf p) :
    (OpcodeRow.mk m p k).matches (opc ++ arg) = true := by
  have e1 : opcodeOf ((opc ++ arg) &&& k) = opc &&& opcodeOf k := by
    conv_rhs => rw [← opcodeOf_append opc arg]
    simp only [opcodeOf, BitVec.extractLsb'_and]
  have e2 : argOf ((opc ++ arg) &&& k) = arg &&& argOf k := by
    conv_rhs => rw [← argOf_append opc arg]
    simp only [argOf, BitVec.extractLsb'_and]
  have : (opc ++ arg) &&& k = p := by
    rw [← append_fields ((opc ++ arg) &&& k), e1, e2, h1, h2, append_fields]
  simp [OpcodeRow.matches, this]

theorem cko2 (p0 p1 : Byte) : Statement (.cko2 p0 p1) := by
  refine ⟨_, rfl, matches_append (by decide) ?_⟩
  apply BitVec.eq_of_getLsbD_eq
  intro i hi
  rw [BitVec.getLsbD_and, getLsbD_argP2]
  interval_cases i <;> simp [argOf]

theorem cki4 (q0 q1 q2 q3 : Byte) : Statement (.cki4 q0 q1 q2 q3) := by
  refine ⟨_, rfl, matches_append (by decide) ?_⟩
  apply BitVec.eq_of_getLsbD_eq
  intro i hi
  rw [BitVec.getLsbD_and, getLsbD_argP4]
  interval_cases i <;> simp [argOf]

theorem currst : Statement .currst := ⟨_, rfl, by decide⟩

theorem setout (bit : Nat) (v : Bool) : Statement (.setout bit v) := by
  refine ⟨_, rfl, matches_append (by decide) ?_⟩
  apply BitVec.eq_of_getLsbD_eq
  intro i hi
  rw [BitVec.getLsbD_and, getLsbD_argB]
  interval_cases i <;> simp [argOf]

theorem getout (bit : Nat) : Statement (.getout bit) := by
  refine ⟨_, rfl, matches_append (by decide) ?_⟩
  apply BitVec.eq_of_getLsbD_eq
  intro i hi
  rw [BitVec.getLsbD_and, getLsbD_argB]
  interval_cases i <;> simp [argOf]

theorem getin (bit : Nat) : Statement (.getin bit) := by
  refine ⟨_, rfl, matches_append (by decide) ?_⟩
  apply BitVec.eq_of_getLsbD_eq
  intro i hi
  rw [BitVec.getLsbD_and, getLsbD_argB]
  interval_cases i <;> simp [argOf]

theorem getanalog : Statement .getanalog := ⟨_, rfl, by decide⟩

theorem setscale (f64 : BitVec 64) : Statement (.setscale f64) := by
  refine ⟨_, rfl, matches_append (by decide) ?_⟩
  simp [argOf]

theorem txbuild : Statement .txbuild := ⟨_, rfl, by decide⟩

theorem rxcheck : Statement .rxcheck := ⟨_, rfl, by decide⟩

theorem update : Statement .update := ⟨_, rfl, by decide⟩

end Sys2Proof.Laws.TableRow
end

