-- ==== Sys2Proof/Laws/Step.lean ====
section
/-! SUPPORT. The commands' effects as record updates, and the inversion lemma of the step: all that one step can do. -/

namespace Sys2Proof.Laws

open Sys2Proof.Machine

variable (s : State)

/-! ### One equation per command -/

theorem exec_cko2 (p0 p1 : Byte) : exec (.cko2 p0 p1) s =
    .next ((s.setIdxOut (cursorNext s.table s.idxOut [p0, p1]).1).report .ok
      (zext64 (cursorNext s.table s.idxOut [p0, p1]).2)) := rfl

theorem exec_cki4 (q0 q1 q2 q3 : Byte) : exec (.cki4 q0 q1 q2 q3) s =
    .next ((s.setIdxIn (cursorNext s.table s.idxIn [q3, q2, q1, q0]).1).report .ok
      (zext64 (cursorNext s.table s.idxIn [q3, q2, q1, q0]).2)) := rfl

theorem exec_currst : exec .currst s = .next (((s.setIdxOut 0x01).setIdxIn 0x01).report .ok 0) := rfl

theorem exec_setout (bit : Nat) (v : Bool) : exec (.setout bit v) s =
    .next (if 16 ≤ bit then s.report .bitRange (BitVec.ofNat 64 bit)
      else (s.setOutputs (writeBit s.outputs bit v)).report .ok 0) := by
  by_cases h : 16 ≤ bit <;> simp [exec, execSetout, bitOutOfRange, h]

theorem exec_getout (bit : Nat) : exec (.getout bit) s =
    .next (if 16 ≤ bit then s.report .bitRange (BitVec.ofNat 64 bit) else s.report .ok (readBit s.outputs bit)) := by
  by_cases h : 16 ≤ bit <;> simp [exec, execGetout, bitOutOfRange, h]

theorem exec_getin (bit : Nat) : exec (.getin bit) s =
    .next (if 32 ≤ bit then s.report .bitRange (BitVec.ofNat 64 bit) else s.report .ok (readBit s.inputs bit)) := by
  by_cases h : 32 ≤ bit <;> simp [exec, execGetin, bitOutOfRange, h]

theorem exec_getanalog : exec .getanalog s = .next (s.report .ok (analogResult s.inputs s.analogScale)) := rfl

theorem exec_setscale (f : BitVec 64) : exec (.setscale f) s = .next ((s.setAnalogScale f).report .ok 0) := rfl

theorem exec_txbuild : exec .txbuild s =
    .next (((s.setIdxOut (outboundPacket s.table s.idxOut s.outputs).1).report .ok
      (zext64 (outboundPacket s.table s.idxOut s.outputs).2)).emitTx (outboundPacket s.table s.idxOut s.outputs).2) := rfl

theorem exec_rxcheck : exec .rxcheck s =
    .next (s.consumeRx.receive (rxStep s.table s.idxIn s.inputs s.rxEvent)) := rfl

theorem exec_update : exec .update s =
    .next ((((s.consumeSend.consumeRx.setIdxOut (outboundPacket s.table s.idxOut s.outputs).1).receive
      (rxStep s.table s.idxIn s.inputs s.rxEvent)).emitTx
        (outboundPacket s.table s.idxOut s.outputs).2).recordSend s.sendOutcome) := rfl

/-! ### The step -/

theorem step_reset {s : State} (h : s.resetDue = true) : step s = .next s.takeReset := by
  simp [step, h]

theorem step_idle {s : State} (hr : s.resetDue = false) (hw : s.currentWord = none) : step s = .next s := by
  simp [step, hr, hw]

theorem step_illegal {s : State} {w : CommandWord} {why : IllegalWord} (hr : s.resetDue = false)
    (hw : s.currentWord = some w) (hd : decode w = .illegal why) : step s = .next (s.report .illegalCmd 0).advance := by
  simp [step, hr, hw, hd]

theorem step_command {s t : State} {w : CommandWord} {i : Instr} (hr : s.resetDue = false)
    (hw : s.currentWord = some w) (hd : decode w = .command i) (he : exec i s = .next t) :
    step s = .next t.advance := by
  simp [step, hr, hw, hd, he]

/-- All that one step can do: take a due reset, stay idle, report an illegal word, or run the command that the word
at the runner's position decodes to. -/
theorem step_cases {s t : State} (h : step s = .next t) :
    (s.resetDue = true ∧ t = s.takeReset) ∨
    (s.resetDue = false ∧ s.currentWord = none ∧ t = s) ∨
    (∃ w why, s.resetDue = false ∧ s.currentWord = some w ∧ decode w = .illegal why ∧
      t = (s.report .illegalCmd 0).advance) ∨
    (∃ w i u, s.resetDue = false ∧ s.currentWord = some w ∧ decode w = .command i ∧ exec i s = .next u ∧
      t = u.advance) := by
  unfold step at h
  split at h
  · next hr => cases h; exact .inl ⟨hr, rfl⟩
  · next hr =>
    have hr : s.resetDue = false := by simpa using hr
    split at h
    · next hw => cases h; exact .inr (.inl ⟨hr, hw, rfl⟩)
    · next w hw =>
      split at h
      · next why hd => cases h; exact .inr (.inr (.inl ⟨w, why, hr, hw, hd, rfl⟩))
      · next i hd =>
        split at h
        · next u he => cases h; exact .inr (.inr (.inr ⟨w, i, u, hr, hw, hd, he, rfl⟩))
        · cases h
        · cases h

end Sys2Proof.Laws
end

