-- ==== Sys2Proof/Laws/Run.lean ====
section
/-! SUPPORT. Runs of several steps: the unfolding of `runsTo`, and the induction that carries a property along a run. -/

namespace Sys2Proof.Laws

open Sys2Proof.Machine

@[simp] theorem runsTo_zero (s t : State) : runsTo 0 s t ↔ t = s := Iff.rfl

/-- A run of `n + 1` steps is a step and then a run of `n`. -/
theorem runsTo_succ (n : Nat) (s t : State) : runsTo (n + 1) s t ↔ ∃ u, step s = .next u ∧ runsTo n u t := Iff.rfl

/-- A run of `m + n` steps is a run of `m` and then one of `n`. -/
theorem runsTo_add (m n : Nat) (s t : State) : runsTo (m + n) s t ↔ ∃ u, runsTo m s u ∧ runsTo n u t := by
  induction m generalizing s with
  | zero => simp
  | succ m ih =>
    rw [Nat.succ_add, runsTo_succ]
    simp only [ih, runsTo_succ]
    constructor
    · rintro ⟨u, h1, v, h2, h3⟩
      exact ⟨v, ⟨u, h1, h2⟩, h3⟩
    · rintro ⟨v, ⟨u, h1, h2⟩, h3⟩
      exact ⟨u, h1, v, h2, h3⟩

/-- What one step keeps, a run keeps. -/
theorem runsTo_keeps {P : State → Prop} (hstep : ∀ s t, P s → step s = .next t → P t) (n : Nat) {s t : State}
    (hs : P s) (h : runsTo n s t) : P t := by
  induction n generalizing s with
  | zero => rw [runsTo_zero] at h; exact h ▸ hs
  | succ n ih =>
    rw [runsTo_succ] at h
    obtain ⟨u, h1, h2⟩ := h
    exact ih (hstep s u hs h1) h2

end Sys2Proof.Laws
end

