-- ==== Sys2Proof/Laws/Table.lean ====
section
/-! SUPPORT. The table space: reading after supplying an entry, and that supplying keeps the canonical form. -/

namespace Sys2Proof.Laws

open Sys2Proof.Machine

@[simp] theorem read_nil (i : Byte) : Memory.read [] i = Memory.unlisted i := rfl

theorem read_cons (a : Nat) (b : Byte) (rest : Memory) (i : Byte) :
    Memory.read ((a, b) :: rest) i = if a = i.toNat then b else Memory.read rest i := rfl

@[simp] theorem wfFrom_nil (low : Nat) : Memory.wfFrom low [] = true := rfl

@[simp] theorem wfFrom_cons (low a : Nat) (b : Byte) (rest : Memory) :
    Memory.wfFrom low ((a, b) :: rest) = true ↔
      low ≤ a ∧ a < 256 ∧ b ≠ Memory.unlisted (BitVec.ofNat 8 a) ∧ Memory.wfFrom (a + 1) rest = true := by
  simp [Memory.wfFrom, and_assoc]

/-- A memory canonical from some address on is canonical from every lower one on. -/
theorem wfFrom_mono {low low' : Nat} (h : low' ≤ low) {m : Memory} (hm : m.wfFrom low = true) :
    m.wfFrom low' = true := by
  cases m with
  | nil => rfl
  | cons c rest =>
    obtain ⟨a, b⟩ := c
    rw [wfFrom_cons] at hm ⊢
    exact ⟨h.trans hm.1, hm.2⟩

/-- An index below all the listed ones reads as unlisted. -/
theorem read_of_lt {low : Nat} {m : Memory} (hm : m.wfFrom low = true) {i : Byte} (h : i.toNat < low) :
    m.read i = Memory.unlisted i := by
  induction m generalizing low with
  | nil => rfl
  | cons c rest ih =>
    obtain ⟨a, b⟩ := c
    rw [wfFrom_cons] at hm
    rw [read_cons, if_neg (by omega), ih hm.2.2.2 (by omega)]

theorem ofNat_toNat_byte (i : Byte) : BitVec.ofNat 8 i.toNat = i := by simp

/-- Supplying an entry keeps the canonical form. -/
theorem supply_wfFrom {low : Nat} {m : Memory} (hm : m.wfFrom low = true) (i b : Byte) (h : low ≤ i.toNat) :
    (m.supply i b).wfFrom low = true := by
  have hi := i.isLt
  induction m generalizing low with
  | nil =>
    unfold Memory.supply
    split
    · rfl
    · next hb => simp [h, hb, hi]
  | cons c rest ih =>
    obtain ⟨a, c⟩ := c
    have hm' := hm
    rw [wfFrom_cons] at hm
    obtain ⟨h1, h2, h3, h4⟩ := hm
    unfold Memory.supply
    split
    · split
      · exact hm'
      · next hb => simp [h, hb, hi, h2, h3, h4]; omega
    · split
      · next he =>
        split
        · exact wfFrom_mono (by omega) h4
        · next hb =>
          rw [wfFrom_cons]
          refine ⟨h1, h2, ?_, h4⟩
          rw [← he, ofNat_toNat_byte]
          exact hb
      · rw [wfFrom_cons]
        exact ⟨h1, h2, h3, ih h4 (by omega)⟩

/-- Supplying an entry keeps the canonical form of a table. -/
theorem supply_wf {m : Memory} (hm : m.wf = true) (i b : Byte) : (m.supply i b).wf = true :=
  supply_wfFrom hm i b (Nat.zero_le _)

/-- The entry supplied reads as supplied, and every other entry as before. -/
theorem read_supply {low : Nat} {m : Memory} (hm : m.wfFrom low = true) (i b j : Byte) :
    (m.supply i b).read j = if j = i then b else m.read j := by
  have hij : i.toNat = j.toNat ↔ j = i := by rw [BitVec.toNat_inj]; exact eq_comm
  induction m generalizing low with
  | nil =>
    unfold Memory.supply
    split
    · next hb => split <;> simp_all
    · simp only [read_cons, hij, read_nil]
  | cons c rest ih =>
    obtain ⟨a, c⟩ := c
    rw [wfFrom_cons] at hm
    obtain ⟨-, -, -, h4⟩ := hm
    unfold Memory.supply
    split
    · next hlt =>
      split
      · next hb =>
        split
        · next hj =>
          subst hj
          rw [read_cons, if_neg (by omega), read_of_lt h4 (by omega), hb]
        · rfl
      · rw [read_cons]
        simp only [hij]
    · split
      · next he =>
        split
        · next hb =>
          split
          · next hj => subst hj; rw [read_of_lt h4 (by omega), hb]
          · next hj => rw [read_cons, if_neg (by rw [← he, hij]; exact hj)]
        · rw [read_cons, read_cons, ← he]
          simp only [hij]
          split <;> rfl
      · next hne =>
        rw [read_cons, read_cons, ih h4]
        split
        · next ha => rw [if_neg]; intro hj; subst hj; omega
        · rfl

end Sys2Proof.Laws
end

