-- ==== Sys2Proof/Tests/Slice0.lean ====
section
/-! SUPPORT. The model's own tests. Expected results are the spec's vectors (95_test_vectors.md, named in each
docstring) or words written out from its encodings (30_encoding.md); the witnesses at the end meet the hypotheses of
the obligations. -/

namespace Sys2Proof.Tests

open Sys2Proof Sys2Proof.Machine

/-! ### Helpers -/

/-- The entries that the tests read of the test table `TT[i] = 0xFF - i` (R14). -/
def tt : Memory := [0x00, 0x01, 0x02, 0x03, 0x16, 0x48, 0xCA, 0xFE].map (fun i => (i, BitVec.ofNat 8 (255 - i)))

/-- The reset state with the test table. -/
def start : State := { State.reset with table := tt }

/-- The start state with a program and receive events. -/
def running (program : List CommandWord) (events : List RxEvent) : State :=
  { start with program := program, rxAnswers := events }

/-- The state a command leads to, itself where it leads to none. -/
def after (i : Instr) (s : State) : State :=
  match exec i s with
  | .next t => t
  | .fault _ => s
  | .refused _ => s

/-- The state a step leads to, itself where it leads to none. -/
def stepped (s : State) : State :=
  match step s with
  | .next t => t
  | .fault _ => s
  | .refused _ => s

/-! ### Well-formedness: each check refuses an ill-formed command -/

/-- R68: a `BIT` of 32 has no encoding. -/
theorem test_wellFormed_setout :
    (Instr.setout 32 true).wellFormed = false ∧ (Instr.setout 31 true).wellFormed = true := by decide

/-- R68: a `BIT` of 32 has no encoding. -/
theorem test_wellFormed_getout :
    (Instr.getout 32).wellFormed = false ∧ (Instr.getout 31).wellFormed = true := by decide

/-- R68: a `BIT` of 32 has no encoding. -/
theorem test_wellFormed_getin :
    (Instr.getin 32).wellFormed = false ∧ (Instr.getin 31).wellFormed = true := by decide

/-! ### Decoding: every constructor by a word written out bit by bit from R61 and R62 -/

/-- `{0x01, 48'b0, P1, P0}`: vector C14's operand places. -/
theorem test_decode_cko2 : decode (0b00000001#8 ++ (0#48 ++ (0b00000001#8 ++ 0b10000000#8))) =
    .command (.cko2 0x80 0x01) := by decide

/-- `{0x02, 32'b0, Q3, Q2, Q1, Q0}`. -/
theorem test_decode_cki4 :
    decode (0b00000010#8 ++ (0#32 ++ (0b00010010#8 ++ (0b00110100#8 ++ (0b01010110#8 ++ 0b01111000#8))))) =
      .command (.cki4 0x78 0x56 0x34 0x12) := by decide

/-- `{0x03, 64'b0}`. -/
theorem test_decode_currst : decode (0b00000011#8 ++ 0#64) = .command .currst := by decide

/-- `{0x10, 55'b0, V, 3'b0, BIT}`. -/
theorem test_decode_setout : decode (0b00010000#8 ++ (0#55 ++ (0b1#1 ++ (0#3 ++ 0b10001#5)))) =
    .command (.setout 17 true) := by decide

/-- `{0x11, 59'b0, BIT}`. -/
theorem test_decode_getout : decode (0b00010001#8 ++ (0#59 ++ 0b01000#5)) = .command (.getout 8) := by decide

/-- `{0x12, 59'b0, BIT}`. -/
theorem test_decode_getin : decode (0b00010010#8 ++ (0#59 ++ 0b11100#5)) = .command (.getin 28) := by decide

/-- `{0x20, 64'b0}`. -/
theorem test_decode_getanalog : decode (0b00100000#8 ++ 0#64) = .command .getanalog := by decide

/-- `{0x21, F64}` (W15: format F has no reserved bit). -/
theorem test_decode_setscale : decode (0b00100001#8 ++ 0xFFFFFFFFFFFFFFFF#64) =
    .command (.setscale 0xFFFFFFFFFFFFFFFF) := by decide

/-- `{0x30, 64'b0}`. -/
theorem test_decode_txbuild : decode (0b00110000#8 ++ 0#64) = .command .txbuild := by decide

/-- `{0x31, 64'b0}`. -/
theorem test_decode_rxcheck : decode (0b00110001#8 ++ 0#64) = .command .rxcheck := by decide

/-- `{0x32, 64'b0}`. -/
theorem test_decode_update : decode (0b00110010#8 ++ 0#64) = .command .update := by decide

/-- W1 to W4: unassigned opcodes. -/
theorem test_decode_unassigned :
    decode 0x000000000000000000#72 = .illegal .unassignedOpcode ∧
    decode 0xFFFFFFFFFFFFFFFFFF#72 = .illegal .unassignedOpcode ∧
    decode 0x040000000000000000#72 = .illegal .unassignedOpcode ∧
    decode 0x130000000000000000#72 = .illegal .unassignedOpcode ∧
    decode 0x220000000000000000#72 = .illegal .unassignedOpcode ∧
    decode 0x330000000000000000#72 = .illegal .unassignedOpcode := by decide

/-- W5 to W11 and the UPDATE word below W16: one reserved bit set. -/
theorem test_decode_reserved :
    decode 0x010000000000010000#72 = .illegal .reservedBitSet ∧
    decode 0x020000000100000000#72 = .illegal .reservedBitSet ∧
    decode 0x030000000000000001#72 = .illegal .reservedBitSet ∧
    decode 0x100000000000000020#72 = .illegal .reservedBitSet ∧
    decode 0x100000000000000200#72 = .illegal .reservedBitSet ∧
    decode 0x110000000000000108#72 = .illegal .reservedBitSet ∧
    decode 0x120000000000000100#72 = .illegal .reservedBitSet ∧
    decode 0x320000000000000001#72 = .illegal .reservedBitSet := by decide

/-! ### The assembler (R69 to R72) -/

/-- R72: text to word. -/
theorem test_assemble_text :
    assembleText "CKI4 0x78, 0x56, 0x34, 0x12 ; C6".toList = some 0x020000000012345678#72 ∧
    assembleText "SETSCALE 1000.0".toList = some 0x21408F400000000000#72 ∧
    assembleText "SETSCALE 0xFFFFFFFFFFFFFFFF".toList = some 0x21FFFFFFFFFFFFFFFF#72 ∧
    assembleText "LPFON".toList = some 0x100000000000000108#72 := by decide

/-- The minus sign of a zero literal is kept (log 13). -/
theorem test_assemble_negative_zero : assembleText "SETSCALE -0.0".toList = some 0x218000000000000000#72 := by decide

/-- P5's first lines as one text: the words of the program, and no program where a line is refused. -/
theorem test_assemble_program :
    assembleProgram "LPFON\n; the frame\nTXBUILD\n\nLPFOFF".toList =
      some [0x100000000000000108#72, 0x300000000000000000#72, 0x100000000000000008#72] ∧
    assembleProgram "TXBUILD\nCKO2 0".toList = none := by decide

/-- R70, W12: operands refused, and one that is not. -/
theorem test_assemble_refuses :
    assembleText "CKO2 256, 0".toList = none ∧ assembleText "SETOUT 32, 1".toList = none ∧
    assembleText "SETOUT 3, 2".toList = none ∧
    assembleText "SETOUT 16, 1".toList = some 0x100000000000000110#72 := by decide

/-! ### The commands -/

/-- C1. -/
theorem test_cko2 : (after (.cko2 0x34 0x12) start).idxOut = 0x48 ∧
    (after (.cko2 0x34 0x12) start).rdata = 0xB7 ∧ (after (.cko2 0x34 0x12) start).idxIn = 0x01 := by decide

/-- C4 and C5: raw 0, and the wrap at 255. -/
theorem test_cko2_wrap : (after (.cko2 0xFF 0x00) start).idxOut = 0x01 ∧
    (after (.cko2 0xFF 0x00) start).rdata = 0xFE ∧
    (after (.cko2 0 0) { start with idxOut := 0xFF }).idxOut = 0x00 := by decide

/-- C6. -/
theorem test_cki4 : (after (.cki4 0x78 0x56 0x34 0x12) start).idxIn = 0x16 ∧
    (after (.cki4 0x78 0x56 0x34 0x12) start).rdata = 0xE9 ∧
    (after (.cki4 0x78 0x56 0x34 0x12) start).inputs = 0 := by decide

/-- C8: the exact sum is 1020. -/
theorem test_cki4_sum : (after (.cki4 0xFF 0xFF 0xFF 0xFF) start).idxIn = 0xFE ∧
    (after (.cki4 0xFF 0xFF 0xFF 0xFF) start).rdata = 0x01 := by decide

/-- C16, Z3. -/
theorem test_currst :
    (after .currst { start with idxOut := 0x48, idxIn := 0x16, outputs := 0x0100 }).idxOut = 0x01 ∧
    (after .currst { start with idxOut := 0x48, idxIn := 0x16, outputs := 0x0100 }).idxIn = 0x01 ∧
    (after .currst { start with idxOut := 0x48, idxIn := 0x16, outputs := 0x0100 }).outputs = 0x0100 := by decide

/-- IO1, IO3. -/
theorem test_setout : (after (.setout 8 true) start).outputs = 0x0100 ∧
    (after (.setout 8 false) { start with outputs := 0xFFFF }).outputs = 0xFEFF := by decide

/-- IO6. -/
theorem test_setout_range : (after (.setout 16 true) { start with outputs := 0x0100 }).outputs = 0x0100 ∧
    (after (.setout 16 true) { start with outputs := 0x0100 }).status = .bitRange ∧
    (after (.setout 16 true) { start with outputs := 0x0100 }).rdata = 0x10 := by decide

/-- IO8. -/
theorem test_getout : (after (.getout 8) { start with outputs := 0x0100 }).rdata = 1 ∧
    (after (.getout 7) { start with outputs := 0x0100 }).rdata = 0 := by decide

/-- IO9. -/
theorem test_getout_range : (after (.getout 16) { start with outputs := 0xFFFF }).status = .bitRange ∧
    (after (.getout 16) { start with outputs := 0xFFFF }).rdata = 0x10 := by decide

/-- IO10. -/
theorem test_getin : (after (.getin 3) { start with inputs := 0x12345678 }).rdata = 1 ∧
    (after (.getin 0) { start with inputs := 0x12345678 }).rdata = 0 ∧
    (after (.getin 28) { start with inputs := 0x12345678 }).rdata = 1 ∧
    (after (.getin 31) { start with inputs := 0x12345678 }).rdata = 0 := by decide

/-- A1, A6 and A3: exact, the order of the operations, rounding. -/
theorem test_getanalog :
    (after .getanalog { start with inputs := 0x12345678 }).rdata = 0x40B2340000000000 ∧
    (after .getanalog { start with inputs := 0x00050000, analogScale := 0x408F400000000000 }).rdata =
      0x3FF3893893893893 ∧
    (after .getanalog { start with inputs := 0x08000000, analogScale := 0x408F400000000000 }).rdata =
      0x407F41F41F41F41F := by decide

/-- A15, A21, A22: the sign of zero, overflow, subnormals kept. -/
theorem test_getanalog_corners :
    (after .getanalog { start with analogScale := 0xC0AFFE0000000000 }).rdata = 0x8000000000000000 ∧
    (after .getanalog { start with inputs := 0xFFFF0000, analogScale := 0x7FEFFFFFFFFFFFFF }).rdata =
      0x7FF0000000000000 ∧
    (after .getanalog { start with inputs := 0x0FFF0000, analogScale := 0x0010000000000000 }).rdata =
      0x000FFFFFFFFFFFF0 := by decide

/-- Part 4, SETSCALE vectors: a NaN pattern is stored unchanged. -/
theorem test_setscale : (after (.setscale 0xFFFFFFFFFFFFFFFF) start).analogScale = 0xFFFFFFFFFFFFFFFF ∧
    (after (.setscale 0xFFFFFFFFFFFFFFFF) start).rdata = 0 := by decide

/-- E4. -/
theorem test_txbuild : (after .txbuild { start with outputs := 0x0100 }).idxOut = 0x03 ∧
    (after .txbuild { start with outputs := 0x0100 }).txData = 0xFC0100 ∧
    (after .txbuild { start with outputs := 0x0100 }).rdata = 0xFC0100 ∧
    (after .txbuild { start with outputs := 0x0100 }).txValid = true := by decide

/-- E10 and E11. -/
theorem test_rxcheck :
    (after .rxcheck (running [] [.datagram [0x78, 0x56, 0x34, 0x12, 0xE9]])).inputs = 0x12345678 ∧
    (after .rxcheck (running [] [.datagram [0x78, 0x56, 0x34, 0x12, 0xE9]])).status = .ok ∧
    (after .rxcheck (running [] [.datagram [0x78, 0x56, 0x34, 0x12, 0x00]])).rdata = 0xE900 ∧
    (after .rxcheck (running [] [.datagram [0x78, 0x56, 0x34, 0x12, 0x00]])).idxIn = 0x16 := by decide

/-- E9: a valid 5-byte beginning of a longer datagram is not accepted. -/
theorem test_rxcheck_length :
    (after .rxcheck (running [] [.datagram [0x78, 0x56, 0x34, 0x12, 0xE9, 0x00]])).status = .malformed ∧
    (after .rxcheck (running [] [.datagram [0x78, 0x56, 0x34, 0x12, 0xE9, 0x00]])).rdata = 6 ∧
    (after .rxcheck (running [] [.datagram [0x78, 0x56, 0x34, 0x12, 0xE9, 0x00]])).idxIn = 0x01 := by decide

/-- E15: a send failure does not block the receive. -/
theorem test_update :
    (after .update { running [] [.datagram [0x78, 0x56, 0x34, 0x12, 0xE9]] with
      sendAnswers := [.transportError] }).senderr = true ∧
    (after .update { running [] [.datagram [0x78, 0x56, 0x34, 0x12, 0xE9]] with
      sendAnswers := [.transportError] }).rdata = 0x12345678 ∧
    (after .update { running [] [.datagram [0x78, 0x56, 0x34, 0x12, 0xE9]] with
      sendAnswers := [.transportError] }).txData = 0xFD0000 := by decide

/-- E17: both failures reported, only the outbound cursor advanced. -/
theorem test_update_timeout :
    (after .update { running [] [.timeout] with sendAnswers := [.transportError] }).status = .timeout ∧
    (after .update { running [] [.timeout] with sendAnswers := [.transportError] }).senderr = true ∧
    (after .update { running [] [.timeout] with sendAnswers := [.transportError] }).idxOut = 0x02 ∧
    (after .update { running [] [.timeout] with sendAnswers := [.transportError] }).idxIn = 0x01 := by decide

/-- W1: the all-zero word reports ILLEGAL_CMD and the runner goes on. -/
theorem test_illegal : (stepped (running [0] [.timeout])).status = .illegalCmd ∧
    (stepped (running [0] [.timeout])).pc = 1 ∧ (stepped (running [0] [.timeout])).rxAnswers = [.timeout] := by
  decide

/-- Z1. -/
theorem test_reset :
    (stepped { start with idxOut := 0x84, idxIn := 0xCA, outputs := 0x8101, inputs := 0x0FFF00A5,
                          analogScale := 0x408F400000000000, status := .mismatch, resetAt := [0] }) = start :=
  rfl

/-- The host's hook: a word placed in the reset state is run by the next step (P3, pc 7). -/
theorem test_withFetchWord :
    (stepped (State.reset.withFetchWord 72 0x100000000000000110)).status = .bitRange := by decide

/-! ### Witnesses: concrete values that meet the hypotheses of each obligation -/

/-- SETOUT with both fields full, and the word it decodes from. -/
theorem witness_DecodingAnEncodedCommandGivesItBack :
    (Instr.setout 31 true).wellFormed = true ∧ (Instr.getout 31).wellFormed = true ∧
    (Instr.getin 31).wellFormed = true := by decide

theorem witness_EncodingADecodedWordGivesItBack :
    decode 0x10000000000000011F#72 = .command (.setout 31 true) := by decide

/-- Both sides of the equivalence occur. -/
theorem witness_IllegalWordsAreThoseThatMatchNoRow :
    (∀ r ∈ opcodeTable, r.matches 0x110000000000000108#72 = false) ∧
    ∃ r ∈ opcodeTable, r.matches 0x110000000000000008#72 = true := by decide

/-- The greatest operands of each line. -/
theorem witness_AssembledWordsHaveTheirFields :
    assembleWord (.cko2 255 255) = some 0x01000000000000FFFF#72 ∧
    assembleWord (.cki4 255 255 255 255) = some 0x0200000000FFFFFFFF#72 ∧
    assembleWord (.setout 31 1) = some 0x10000000000000011F#72 ∧
    assembleWord (.getout 31) = some 0x11000000000000001F#72 ∧
    assembleWord (.getin 31) = some 0x12000000000000001F#72 := by decide

/-- The first operand refused at each field. -/
theorem witness_AssemblerRefusesOperandsOutsideTheirFields :
    assembleWord (.cko2 0 256) = none ∧ assembleWord (.cki4 0 0 0 256) = none ∧
    assembleWord (.setout 32 0) = none ∧ assembleWord (.setout 31 2) = none ∧
    assembleWord (.getout 32) = none ∧ assembleWord (.getin 32) = none := by decide

/-- A program of one UPDATE word, with no reset due. -/
theorem witness_StepRunsTheDecodedCommand :
    (running [0x320000000000000000#72] []).resetDue = false ∧
    (running [0x320000000000000000#72] []).program[(running [0x320000000000000000#72] []).pc]? =
      some 0x320000000000000000#72 ∧
    decode 0x320000000000000000#72 = .command .update := by decide

theorem witness_IllegalWordOnlyReports :
    (running [0x320000000000000001#72] []).resetDue = false ∧
    (running [0x320000000000000001#72] []).program[(running [0x320000000000000001#72] []).pc]? =
      some 0x320000000000000001#72 ∧
    decode 0x320000000000000001#72 = .illegal .reservedBitSet := by decide

theorem witness_RunnerAdvancesByOneAfterEveryCommand :
    (running [0] []).resetDue = false ∧ (running [0] []).pc < (running [0] []).program.length := by decide

/-- A position at the end of the list, and a reset requested later. -/
theorem witness_IdleBlockKeepsAllItsState :
    ({ running [0] [] with pc := 1, resetAt := [2] } : State).resetDue = false ∧
    ({ running [0] [] with pc := 1, resetAt := [2] } : State).program.length ≤ 1 := by decide

theorem witness_ProgramOfManyCommandsEndsAfterAsManySteps :
    (running [0, 0] []).resetAt = [] ∧ (running [0, 0] []).pc ≤ (running [0, 0] []).program.length := by decide

/-- A reset due at the position reached, and one at an earlier position not yet taken. -/
theorem witness_ResetSetsEveryElement : ({ start with resetAt := [0] } : State).resetDue = true ∧
    ({ start with pc := 2, resetAt := [1, 5] } : State).resetDue = true := by decide

/-- The request is used up and a later one stays. -/
theorem witness_ResetLeavesTheRunnerAndTheTransportAlone :
    ∃ t, step { start with pc := 2, resetAt := [1, 5] } = .next t ∧ t.resetAt = [5] ∧ t.pc = 2 := ⟨_, rfl, rfl, rfl⟩

/-- Z2: a reset and `SETOUT 3, 1` requested together; the state that the two steps lead to. -/
theorem witness_ResetIsTakenBeforeASimultaneousCommand :
    (0 : Nat) ≤ ({ running [0x100000000000000103#72] [] with outputs := 0x8101, resetAt := [0] } : State).pc ∧
    ({ running [0x100000000000000103#72] [] with outputs := 0x8101, resetAt := [0] } : State).program[0]? =
      some 0x100000000000000103#72 ∧
    decode 0x100000000000000103#72 = .command (.setout 3 true) ∧
    (after (.setout 3 true)
      ({ running [0x100000000000000103#72] [] with outputs := 0x8101, resetAt := [0] } : State).takeReset).outputs =
        0x0008 := by decide

/-- The table's row of GETIN with 72 bits, and RXCHECK's word where higher bits are cut off. -/
theorem witness_PlacedWordIsRunNext :
    decodeTableWord 72 0x12000000000000001F = some (.getin 31) ∧
    decodeTableWord 72 (2 ^ 72 + 0x310000000000000000) = some .rxcheck := by decide

/-- A state after an UPDATE whose send failed and whose packet did not validate. -/
def mismatched : State :=
  { State.reset with
    status := .mismatch
    senderr := true
    rdata := mismatchData (Memory.read [] 0x01) (Memory.read [] 0x01 + 1)
    txValid := true
    txData := Memory.read [] 0x01 ++ (0x0000 : BitVec 16)
    program := [0x320000000000000000#72] }

/-- The invariant's clauses on frames, sends and mismatches, met together. -/
theorem witness_EveryStepKeepsTheInvariant_mismatch :
    mismatched.Inv ∧ mismatched.status = .mismatch ∧ mismatched.senderr = true ∧ mismatched.txValid = true ∧
    ∃ t, step mismatched = .next t := by
  refine ⟨⟨rfl, by decide, nofun, fun _ => rfl, fun _ => rfl, by decide, nofun,
    fun _ => ⟨Memory.read [] 0x01 + 1, ?_, rfl⟩, nofun, nofun⟩, rfl, rfl, rfl, _, rfl⟩
  show Memory.read [] 0x01 + 1 ≠ Memory.read [] 0x01
  generalize (Memory.read [] 0x01 : Byte) = x
  revert x
  decide

/-- The invariant's clauses on BIT_RANGE, at the least and the greatest index. -/
theorem witness_EveryStepKeepsTheInvariant_range :
    ({ State.reset with status := .bitRange, rdata := 16, program := [0] } : State).Inv ∧
    ({ State.reset with status := .bitRange, rdata := 31, program := [0] } : State).Inv := by
  refine ⟨⟨rfl, by decide, fun _ => rfl, nofun, nofun, by decide, nofun,
    nofun, fun _ => ⟨⟨16, by decide⟩, rfl⟩, nofun⟩, ⟨rfl, by decide, fun _ => rfl,
    nofun, nofun, by decide, nofun, nofun,
    fun _ => ⟨⟨31, by decide⟩, rfl⟩, nofun⟩⟩

/-- The invariant's clauses on TIMEOUT and ILLEGAL_CMD. -/
theorem witness_EveryStepKeepsTheInvariant_zero :
    ({ State.reset with status := .timeout } : State).Inv ∧ ({ State.reset with status := .illegalCmd } : State).Inv :=
  ⟨⟨rfl, by decide, fun _ => rfl, nofun, nofun, by decide, fun _ => rfl,
    nofun, nofun, nofun⟩, ⟨rfl, by decide, fun _ => rfl,
    nofun, nofun, by decide, nofun, nofun,
    nofun, fun _ => ⟨rfl, rfl⟩⟩⟩

theorem witness_TableIsNeverWritten : ∃ t, step (running [0x010000000000001234#72] []) = .next t ∧ t.idxOut = 0x48 :=
  ⟨_, rfl, rfl⟩

/-- A payload and its reversal, and a payload of sum 255. -/
theorem witness_CursorUpdateLaws :
    [(0x78 : Byte), 0x56, 0x34, 0x12].Perm [0x12, 0x34, 0x56, 0x78] ∧
    payloadSum [(0x80 : Byte), 0x7F] % 256 = 255 ∧ payloadSum [(0xFF : Byte), 0xFF, 0xFF, 0x02] % 256 = 255 := by
  decide

theorem witness_CursorClosedForm :
    1 < (cursorRun tt 0x01 [[0xFF, 0xFF], [0, 0]]).length ∧
    3 < (cursorRun tt 1 (List.replicate 4 [0, 0])).length := by decide

/-- Tables that read alike, runs long enough on both sides, and a skipped payload that does no harm. -/
theorem witness_MirroredCursorsAgreeAndASkippedUpdateStaysApart :
    (∀ i, tt.read i = tt.read i) ∧ 0 < (cursorRun tt 0x01 [[0, 0]]).length ∧
    0 < (cursorRun tt (cursorNext tt 0x01 [1, 0]).1 [[0, 0]]).length ∧ (payloadSum [0xFF, 0x00] + 1) % 256 = 0 :=
  ⟨fun _ => rfl, by decide, by decide, by decide⟩

/-- SETOUT's two clauses where they meet. -/
theorem witness_SetoutWritesOneBit :
    (after (.setout 15 true) start).outputs = 0x8000 ∧ (after (.setout 15 true) start).status = .ok ∧
    (after (.setout 16 true) start).outputs = 0 ∧ (after (.setout 16 true) start).status = .bitRange := by decide

/-- GETOUT's two clauses where they meet. -/
theorem witness_GetoutTestsOneBit :
    (after (.getout 15) { start with outputs := 0x8000 }).rdata = 1 ∧
    (after (.getout 16) { start with outputs := 0x8000 }).status = .bitRange := by decide

theorem witness_GetinTestsOneBit : (Instr.getin 31).wellFormed = true ∧
    (after (.getin 31) { start with inputs := 0x80000000 }).rdata = 1 := by decide

/-- The least index out of range of each register. -/
theorem witness_OutOfRangeBitIndexIsRejected :
    (after (.setout 16 false) start).rdata = 16 ∧ (after (.getout 16) start).rdata = 16 ∧
    (after (.getin 32) start).status = .bitRange ∧ (after (.getin 32) start).rdata = 32 := by decide

theorem witness_GetoutReturnsWhatSetoutSet :
    (after (.getout 15) (after (.setout 15 true) start)).rdata = 1 ∧
    (after (.getout 15) (after (.setout 15 false) { start with outputs := 0xFFFF })).rdata = 0 := by decide

/-- A result that is a number, and one that is a NaN (A18). -/
theorem witness_GetanalogReturnsTheScaledSample :
    fmul64 (u16ToF64 4660) (fdiv64 (F64.ofBits 0x40AFFE0000000000) (u16ToF64 4095)) ≠ .nan ∧
    fmul64 (u16ToF64 0) (fdiv64 (F64.ofBits 0x7FF0000000000000) (u16ToF64 4095)) = .nan := by decide

/-- Finite patterns at the ends of the range. -/
theorem witness_MultiplicationIsCorrectlyRounded :
    (F64.ofBits 0x7FEFFFFFFFFFFFFF).isFinite = true ∧ (F64.ofBits 0x8000000000000001).isFinite = true ∧
    bits64 0 (fmul64 (F64.ofBits 0x7FEFFFFFFFFFFFFF) (F64.ofBits 0x4000000000000000)) = 0x7FF0000000000000 ∧
    bits64 0 (fmul64 (F64.ofBits 0x8000000000000001) (F64.ofBits 0x3FE0000000000000)) = 0x8000000000000000 := by
  decide

/-- The divisor of the scaling is finite and its value is not 0. -/
theorem witness_DivisionIsCorrectlyRounded :
    (F64.ofBits 0x408F400000000000).isFinite = true ∧ (F64.ofBits 0x40AFFE0000000000).isFinite = true ∧
    (F64.ofBits 0x40AFFE0000000000).value ≠ 0 := by
  refine ⟨by decide, by decide, ?_⟩
  rw [show F64.ofBits 0x40AFFE0000000000 = .fin false 0x1FFE0000000000 (-41) by decide]
  norm_num [F64.value]

/-- Samples 0 and not 0, a NaN scale, and negative finite scales, the least of which underflows (A24 with the sign
set). -/
theorem witness_AnalogCornerCases :
    (0x00010000 : BitVec 32).extractLsb' 16 16 ≠ 0 ∧ (0x0000FFFF : BitVec 32).extractLsb' 16 16 = 0 ∧
    F64.ofBits 0x7FF0000000000001 = .nan ∧ (F64.ofBits 0xFFEFFFFFFFFFFFFF).isFinite = true ∧
    (0xFFEFFFFFFFFFFFFF : BitVec 64).getLsbD 63 = true ∧ (F64.ofBits 0x8000000000000001).isFinite = true ∧
    analogResult 0xFFFF0000 0x8000000000000001 = 0x8000000000000000 := by decide

/-- Reset's scale, and two input words that differ in a digital input only (A8). -/
theorem witness_AnalogExtractionIsExactAtFullScale :
    start.analogScale = 0x40AFFE0000000000 ∧
    (0x1234FFFF : BitVec 32).extractLsb' 16 16 = (0x12340000 : BitVec 32).extractLsb' 16 16 := by decide

/-- Lengths next to 5 and 0, and a received checksum one off. -/
theorem witness_ReceiveStepClassifiesTheEvent :
    [(0x78 : Byte), 0x56, 0x34, 0x12].length ≠ 5 ∧ [(0x78 : Byte), 0x56, 0x34, 0x12, 0xE9, 0x00].length ≠ 5 ∧
    ([] : List Byte).length ≠ 5 ∧ tt.read (0x01 + (0x12 + 0x34 + 0x56 + 0x78 + 1)) ≠ 0xE8 ∧
    tt.read (0x01 + (0x12 + 0x34 + 0x56 + 0x78 + 1)) = 0xE9 := by decide

/-- An event of each kind that the two clauses speak of. -/
theorem witness_InboundCursorAdvancesOnFiveByteDatagrams :
    (running [] [.datagram [0xFF, 0, 0, 0, 0xFE]]).rxEvent = .datagram [0xFF, 0, 0, 0, 0xFE] ∧
    (running [] [.timeout]).rxEvent = .timeout ∧
    (∀ d : List Byte, (running [] [.timeout]).rxEvent = .datagram d → d.length ≠ 5) :=
  ⟨rfl, rfl, nofun⟩

/-- A send that failed and one that did not. -/
theorem witness_SenderrRecordsAFailedSendOfUpdate :
    ({ start with sendAnswers := [.transportError] } : State).sendOutcome = .transportError ∧
    ({ start with sendAnswers := [.ok] } : State).sendOutcome = .ok := by decide

/-- Commands that change each element. -/
theorem witness_StateChangesOnlyByItsWriters :
    (after (.cko2 0 0) start).idxOut ≠ start.idxOut ∧ (after (.cki4 0 0 0 0) start).idxIn ≠ start.idxIn ∧
    (after (.setout 0 true) start).outputs ≠ start.outputs ∧
    (after .rxcheck (running [] [.datagram [0xFF, 0, 0, 0, 0xFE]])).inputs ≠ 0 ∧
    (after (.setscale 0) start).analogScale ≠ start.analogScale := by decide

/-- A command of each kind that the two clauses speak of. -/
theorem witness_CursorsAreIndependent :
    (after (.cko2 0 0) { start with idxIn := 0x55 }).idxIn = 0x55 ∧
    (after .rxcheck { running [] [.datagram [0xFF, 0, 0, 0, 0xFE]] with idxOut := 0x55 }).idxOut = 0x55 := by decide

/-- GETIN, and a GETOUT that is rejected, each done twice. -/
theorem witness_ReadingCommandsChangeNothing :
    (after (.getin 0) (after (.getin 0) { start with inputs := 1 })).rdata = 1 ∧
    (after (.getout 16) (after (.getout 16) start)).status = .bitRange := by decide

/-- Statuses of each group that the clauses speak of. -/
theorem witness_StatusesHaveTheirCodesAndProducers :
    (Instr.setout 31 true).wellFormed = true ∧ (after (.setout 31 true) start).status = .bitRange ∧
    (after .rxcheck (running [] [.timeout])).status = .timeout ∧
    (after .rxcheck (running [] [.transportError])).status = .xerr ∧
    (after .rxcheck (running [] [.datagram []])).status = .malformed ∧
    (after .rxcheck (running [] [.datagram [0, 0, 0, 0, 0]])).status = .mismatch := by decide

/-- The reference peer with the test table, both cursors at 1. -/
def peer : Peer := { devTx := 0x01, devRx := 0x01, table := tt }

/-- P1's two exchanges: the peer sends `0x12345678` and then `0x0FFF00A5`, and the program is two UPDATEs. -/
theorem witness_EveryDatagramOfThePeerValidates :
    (running [0x320000000000000000#72, 0x320000000000000000#72]
      (peer.answers [0x12345678, 0x0FFF00A5])).InboundInStep peer ∧
    peer.answers [0x12345678, 0x0FFF00A5] =
      [.datagram [0x78, 0x56, 0x34, 0x12, 0xE9], .datagram [0xA5, 0x00, 0xFF, 0x0F, 0x35]] ∧
    (∀ k, k < 2 → (running [0x320000000000000000#72, 0x320000000000000000#72]
      (peer.answers [0x12345678, 0x0FFF00A5])).commandAt k .update) := by
  refine ⟨⟨fun _ => rfl, rfl⟩, rfl, fun k hk => ⟨0x320000000000000000#72, ?_, by decide⟩⟩
  match k, hk with
  | 0, _ => rfl
  | 1, _ => rfl

theorem witness_PeerComputesTheChecksumOfEveryPacket : start.OutboundInStep peer ∧
    (peer.nextRx 0x00 0x00).2 = 0xFD := ⟨⟨fun _ => rfl, rfl⟩, rfl⟩

/-- E18: a timeout, then the late datagram. -/
theorem witness_DelayAloneDoesNotDesynchronise :
    (running [0x320000000000000000#72, 0x310000000000000000#72]
      [.timeout, .datagram [0x01, 0x00, 0x00, 0x00, 0xFC]]).InboundInStep peer ∧
    [RxEvent.timeout, .datagram [0x01, 0x00, 0x00, 0x00, 0xFC]].filter (fun ev => decide (ev ≠ .timeout)) =
      peer.answers [0x00000001] ∧
    (running [0x320000000000000000#72, 0x310000000000000000#72]
      [.timeout, .datagram [0x01, 0x00, 0x00, 0x00, 0xFC]]).commandAt 0 .update ∧
    (running [0x320000000000000000#72, 0x310000000000000000#72]
      [.timeout, .datagram [0x01, 0x00, 0x00, 0x00, 0xFC]]).commandAt 1 .rxcheck :=
  ⟨⟨fun _ => rfl, rfl⟩, rfl, ⟨_, rfl, by decide⟩, ⟨_, rfl, by decide⟩⟩

/-- A session step that receives (P1, pc 3), and one that runs another command; TXBUILD's word is neither CKI4's nor
CURRST's. -/
theorem witness_SessionStepsKeepTheInboundPairInStep :
    (running [0x320000000000000000#72] (peer.answers [0x12345678])).InboundInStep peer ∧
    (running [0x320000000000000000#72] (peer.answers [0x12345678])).rxAnswers = peer.answers [0x12345678] ++ [] ∧
    decode 0x320000000000000000#72 = .command .update ∧ decode 0x300000000000000000#72 = .command .txbuild ∧
    (∀ q0 q1 q2 q3, decode 0x300000000000000000#72 ≠ .command (.cki4 q0 q1 q2 q3)) ∧
    decode 0x300000000000000000#72 ≠ .command .currst := by
  have h : decode 0x300000000000000000#72 = .command .txbuild := by decide
  exact ⟨⟨fun _ => rfl, rfl⟩, rfl, by decide, h, fun _ _ _ _ => by rw [h]; nofun, by rw [h]; nofun⟩

end Sys2Proof.Tests
end

section
/-! SUPPORT. Correct rounding: what the significand and the quantum of a rounded datum satisfy, that no finite pattern
is nearer, and that the pattern of `roundF64` is the exact value rounded (spec 00_scope.md R13). -/

namespace Sys2Proof.Laws

open Sys2Proof.Machine

/-! ### The significand and the quantum that `roundF64` chooses -/

/-- The exponent of the quantum to which `roundF64` rounds. -/
def quantumExp (num den : Nat) (exp : Int) : Int := max (floorLog2 num den + exp - 52) (-1074)

/-- The significand that `roundF64` answers, the carry to `2^53` included. -/
def roundedSig (num den : Nat) (exp : Int) : Nat :=
  nearestEven (num * pow2 (exp - quantumExp num den exp)) (den * pow2 (quantumExp num den exp - exp))

theorem roundF64_zero (neg : Bool) (den : Nat) (exp : Int) : roundF64 neg 0 den exp = .fin neg 0 (-1074) := rfl

theorem roundF64_of_pos (neg : Bool) {num : Nat} (hn : 0 < num) (den : Nat) (exp : Int) :
    roundF64 neg num den exp =
      if 971 < quantumExp num den exp ∨ (quantumExp num den exp = 971 ∧ 2 ^ 53 ≤ roundedSig num den exp) then .inf neg
      else .fin neg (roundedSig num den exp) (quantumExp num den exp) := if_neg hn.ne'

/-- The significand `m` in units of `2^q` is the rounding of `x` units: `q` is the least exponent that leaves 53 bits or
the subnormals' one, and `m` is nearest to `x`, even where two integers are equally near. -/
structure IsRounding (x : ℚ) (m : Nat) (q : Int) : Prop where
  quantum_ge : -1074 ≤ q
  lt : x < 2 ^ 53
  normal : q = -1074 ∨ 2 ^ 52 ≤ x
  near : |(m : ℚ) - x| ≤ 1 / 2
  even_of_tie : |(m : ℚ) - x| = 1 / 2 → m % 2 = 0

/-- The exact value in units of the quantum. -/
theorem scaled_quotient (num den : Nat) (exp q : Int) :
    ((num * pow2 (exp - q) : Nat) : ℚ) / (den * pow2 (q - exp) : Nat) = (num : ℚ) / den * 2 ^ (exp - q) := by
  rw [← pow2_div, neg_sub]
  push_cast
  exact mul_div_mul_comm _ _ _ _

theorem isRounding_roundedSig {num den : Nat} (hn : 0 < num) (hd : 0 < den) (exp : Int) :
    IsRounding ((num : ℚ) / den * 2 ^ (exp - quantumExp num den exp)) (roundedSig num den exp)
      (quantumExp num den exp) := by
  obtain ⟨low, high⟩ := floorLog2_spec hn hd
  have near := nearestEven_spec (num * pow2 (exp - quantumExp num den exp))
    (den := den * pow2 (quantumExp num den exp - exp)) (Nat.mul_pos hd (pow2_pos _))
  rw [scaled_quotient] at near
  refine ⟨le_max_right _ _, ?_, ?_, near.1, near.2⟩
  · have hq : floorLog2 num den + 1 + (exp - quantumExp num den exp) ≤ 53 := by
      have : floorLog2 num den + exp - 52 ≤ quantumExp num den exp := le_max_left _ _
      omega
    calc (num : ℚ) / den * 2 ^ (exp - quantumExp num den exp)
        < 2 ^ (floorLog2 num den + 1) * 2 ^ (exp - quantumExp num den exp) := by gcongr
      _ = 2 ^ (floorLog2 num den + 1 + (exp - quantumExp num den exp)) := (zpow_add₀ two_ne_zero _ _).symm
      _ ≤ 2 ^ (53 : Int) := zpow_le_zpow_right₀ one_le_two hq
      _ = 2 ^ 53 := by norm_cast
  · rcases max_choice (floorLog2 num den + exp - 52) (-1074) with h | h
    · right
      have hq : floorLog2 num den + (exp - quantumExp num den exp) = 52 := by
        have : quantumExp num den exp = floorLog2 num den + exp - 52 := h
        omega
      calc (2 : ℚ) ^ 52 = 2 ^ (floorLog2 num den + (exp - quantumExp num den exp)) := by rw [hq]; norm_cast
        _ = 2 ^ floorLog2 num den * 2 ^ (exp - quantumExp num den exp) := zpow_add₀ two_ne_zero _ _
        _ ≤ _ := by gcongr
    · exact .inl h

/-- Doubling a power of two stays at or below every larger one. -/
theorem two_mul_zpow_le {a b : Int} (h : a < b) : 2 * (2 : ℚ) ^ a ≤ 2 ^ b := by
  rw [← zpow_one_add₀ two_ne_zero]
  exact zpow_le_zpow_right₀ one_le_two (by omega)

/-- Half a unit above the largest finite number, in units of the largest quantum. -/
theorem overflow_threshold : (2 : ℚ) ^ 1024 - 2 ^ 970 = (2 ^ 53 - 1 / 2) * 2 ^ (971 : Int) := by
  rw [zpow_ofNat, show 1024 = 54 + 970 from rfl, show 971 = 1 + 970 from rfl, pow_add, pow_add]
  generalize (2 : ℚ) ^ 970 = p
  ring

/-! ### What a rounding satisfies -/

namespace IsRounding

variable {x : ℚ} {m : Nat} {q : Int}

theorem sig_le (h : IsRounding x m q) : m ≤ 2 ^ 53 := by
  have near := (abs_le.1 h.near).2
  have lt := h.lt
  have : (m : ℚ) < (2 ^ 53 + 1 : Nat) := by push_cast; linarith
  exact Nat.lt_succ_iff.1 (by exact_mod_cast this)

/-- No integer is nearer, and where another one is equally near the significand is even. -/
theorem nearest_int (h : IsRounding x m q) (k : Int) :
    |(m : ℚ) - x| ≤ |(k : ℚ) - x| ∧ (|(m : ℚ) - x| = |(k : ℚ) - x| → k ≠ m → m % 2 = 0) := by
  have near := h.near
  by_cases hk : k = m
  · subst hk
    exact ⟨le_rfl, fun _ hne => absurd rfl hne⟩
  have apart : 1 ≤ |(m : ℚ) - x| + |(k : ℚ) - x| := by
    have h1 : (1 : ℚ) ≤ |(k : ℚ) - m| := by exact_mod_cast Int.one_le_abs (sub_ne_zero.2 hk)
    have h2 := abs_sub_le (k : ℚ) x m
    rw [abs_sub_comm x] at h2
    linarith
  exact ⟨by linarith, fun tie _ => h.even_of_tie (by linarith)⟩

/-- Every number below the normal significands is farther than the significand of a normal one. -/
theorem nearer_of_lt (h : IsRounding x m q) {y : ℚ} (hy : y < 2 ^ 52) (hx : 2 ^ 52 ≤ x) :
    |(m : ℚ) - x| < |y - x| := by
  have near := (h.nearest_int (2 ^ 52)).1
  rw [Int.cast_pow, Int.cast_ofNat, abs_sub_comm (2 ^ 52), abs_of_nonneg (by linarith : 0 ≤ x - 2 ^ 52)] at near
  rw [abs_sub_comm y, abs_of_nonneg (by linarith : 0 ≤ x - y)]
  linarith

theorem sig_normal (h : IsRounding x m q) : q = -1074 ∨ 2 ^ 52 ≤ m := by
  refine h.normal.imp_right fun hx => ?_
  by_contra hm
  have : (m : ℚ) < 2 ^ 52 := by exact_mod_cast not_le.1 hm
  exact lt_irrefl _ (h.nearer_of_lt this hx)

/-- The significand carries exactly from half a unit below `2^53` on: `2^53 - 1` is odd. -/
theorem carry_iff (h : IsRounding x m q) : 2 ^ 53 ≤ m ↔ 2 ^ 53 - 1 / 2 ≤ x := by
  obtain ⟨low, high⟩ := abs_le.1 h.near
  constructor
  · intro hm
    have : (2 : ℚ) ^ 53 ≤ m := by exact_mod_cast hm
    linarith
  · intro hx
    by_contra hm
    have hm' : (m : ℚ) ≤ 2 ^ 53 - 1 := by
      have : m + 1 ≤ 2 ^ 53 := by omega
      have : (m : ℚ) + 1 ≤ 2 ^ 53 := by exact_mod_cast this
      linarith
    have hm'' : (m : ℚ) = 2 ^ 53 - 1 := by linarith
    have even := h.even_of_tie (by rw [abs_of_nonpos (by linarith)]; linarith)
    have : m + 1 = 2 ^ 53 := by
      have : (m : ℚ) + 1 = 2 ^ 53 := by linarith
      exact_mod_cast this
    omega

/-- `roundF64` answers an infinity exactly from half a unit above the largest finite number on. -/
theorem overflow_iff (h : IsRounding x m q) :
    (971 < q ∨ (q = 971 ∧ 2 ^ 53 ≤ m)) ↔ 2 ^ 1024 - 2 ^ 970 ≤ x * 2 ^ q := by
  rw [h.carry_iff, overflow_threshold]
  have pos : (0 : ℚ) < 2 ^ (971 : Int) := by positivity
  rcases lt_trichotomy q 971 with hq | rfl | hq
  · have half := two_mul_zpow_le hq
    generalize (2 : ℚ) ^ (971 : Int) = p at pos half ⊢
    have : x * 2 ^ q < (2 ^ 53 - 1 / 2) * p := by
      calc x * 2 ^ q < 2 ^ 53 * 2 ^ q := by gcongr; exact h.lt
        _ ≤ (2 ^ 53 - 1 / 2) * p := by linarith
    simp only [not_le.2 this, iff_false]
    omega
  · simp
  · have half := two_mul_zpow_le hq
    generalize (2 : ℚ) ^ (971 : Int) = p at pos half ⊢
    have hx : 2 ^ 52 ≤ x := h.normal.resolve_left (by omega)
    refine iff_of_true (.inl hq) ?_
    calc (2 ^ 53 - 1 / 2) * p ≤ 2 ^ 52 * (2 * p) := by linarith
      _ ≤ 2 ^ 52 * 2 ^ q := by gcongr
      _ ≤ x * 2 ^ q := by gcongr

/-- No finite number of the format is nearer, and where another one is equally near the significand is even. -/
theorem nearest_candidate (h : IsRounding x m q) {k e : Int} (hk : |k| < 2 ^ 53) (he : -1074 ≤ e) :
    |m * (2 : ℚ) ^ q - x * 2 ^ q| ≤ |k * (2 : ℚ) ^ e - x * 2 ^ q| ∧
      (|m * (2 : ℚ) ^ q - x * 2 ^ q| = |k * (2 : ℚ) ^ e - x * 2 ^ q| →
        (k * (2 : ℚ) ^ e ≠ m * (2 : ℚ) ^ q) → m % 2 = 0) := by
  have pos : (0 : ℚ) < 2 ^ q := by positivity
  have scale : ∀ y : ℚ, |y * 2 ^ q - x * 2 ^ q| = |y - x| * 2 ^ q := fun y => by
    rw [← sub_mul, abs_mul, abs_of_pos pos]
  have split : (2 : ℚ) ^ e = 2 ^ (e - q) * 2 ^ q := by rw [← zpow_add₀ two_ne_zero, sub_add_cancel]
  rw [split, ← mul_assoc, scale, scale, mul_le_mul_iff_left₀ pos, mul_left_inj' pos.ne', Ne, mul_left_inj' pos.ne']
  rcases le_or_gt q e with hq | hq
  · obtain ⟨n, hn⟩ := Int.eq_ofNat_of_zero_le (sub_nonneg.2 hq)
    have near := h.nearest_int (k * 2 ^ n)
    rw [hn]
    push_cast at near ⊢
    exact ⟨near.1, fun tie hne => near.2 tie (by exact_mod_cast hne)⟩
  · have hk' : (k : ℚ) < 2 ^ 53 := by exact_mod_cast (abs_lt.1 hk).2
    have half := two_mul_zpow_le (sub_neg.2 hq)
    have small : (k : ℚ) * 2 ^ (e - q) < 2 ^ 52 := by
      have : (0 : ℚ) < 2 ^ (e - q) := by positivity
      rw [zpow_zero] at half
      calc (k : ℚ) * 2 ^ (e - q) < 2 ^ 53 * 2 ^ (e - q) := by gcongr
        _ ≤ 2 ^ 52 := by linarith
    have nearer := h.nearer_of_lt small (h.normal.resolve_left (by omega))
    exact ⟨nearer.le, fun tie => absurd tie nearer.ne⟩

end IsRounding

/-! ### The pattern of a rounded datum -/

/-- A significand of `2^53` carries into the exponent. -/
theorem bits64_carry (neg : Bool) {q : Int} (h : -1074 ≤ q) (nanBits : BitVec 64) :
    bits64 nanBits (.fin neg (2 ^ 53) q) = bits64 nanBits (.fin neg (2 ^ 52) (q + 1)) := by
  have carried : (q + 1074).toNat * 2 ^ 52 + 2 ^ 53 = (q + 1 + 1074).toNat * 2 ^ 52 + 2 ^ 52 := by omega
  simp only [bits64, carried]

/-- The pattern of a rounded datum stands for a finite datum of the same value, with an even significand where the
rounded one is even. -/
theorem ofBits_bits64_rounded (neg : Bool) {x : ℚ} {m : Nat} {q : Int} (h : IsRounding x m q)
    (fits : ¬(971 < q ∨ (q = 971 ∧ 2 ^ 53 ≤ m))) (nanBits : BitVec 64) :
    ∃ (sig : Nat) (exp : Int), F64.ofBits (bits64 nanBits (.fin neg m q)) = .fin neg sig exp ∧
      (sig : ℚ) * 2 ^ exp = m * 2 ^ q ∧ (m % 2 = 0 → sig % 2 = 0) := by
  have lower := h.quantum_ge
  rcases h.sig_le.lt_or_eq with hm | rfl
  · exact ⟨m, q, ofBits_bits64 neg nanBits lower (by omega) hm h.sig_normal, rfl, id⟩
  · refine ⟨2 ^ 52, q + 1, ?_, ?_, fun _ => by norm_num⟩
    · rw [bits64_carry neg lower]
      exact ofBits_bits64 neg nanBits (by omega) (by omega) (by norm_num) (.inr le_rfl)
    · rw [zpow_add_one₀ two_ne_zero]
      push_cast
      ring

/-- The factor of a sign in a datum's value. -/
def signFactor (neg : Bool) : ℚ := if neg then -1 else 1

theorem value_fin (neg : Bool) (sig : Nat) (exp : Int) :
    (F64.fin neg sig exp).value = signFactor neg * (sig * 2 ^ exp) := mul_assoc _ _ _

theorem abs_signFactor_mul (neg : Bool) (v : ℚ) : |signFactor neg * v| = |v| := by cases neg <;> simp [signFactor]

theorem signFactor_bne (s t : Bool) : signFactor (s != t) = signFactor s * signFactor t := by
  cases s <;> cases t <;> norm_num [signFactor]

theorem signFactor_div (s t : Bool) : signFactor s / signFactor t = signFactor (s != t) := by
  cases s <;> cases t <;> norm_num [signFactor]

/-- A positive value with a sign is negative where the sign is. -/
theorem signFactor_mul_neg_iff (neg : Bool) {w : ℚ} (hw : 0 < w) : signFactor neg * w < 0 ↔ neg = true := by
  cases neg <;> simp [signFactor, hw, hw.le]

/-- A finite pattern's value, taken with a further sign, is an integer below `2^53` times a power of two from the
subnormals' on. -/
theorem signed_value_of_finite (neg : Bool) {c : BitVec 64} (hc : (F64.ofBits c).isFinite = true) :
    ∃ k e : Int, |k| < 2 ^ 53 ∧ -1074 ≤ e ∧ (F64.ofBits c).value = signFactor neg * (k * 2 ^ e) := by
  obtain ⟨sig, e, hc, hsig, he, -⟩ := ofBits_finite hc
  have hsig : (sig : Int) < 2 ^ 53 := by exact_mod_cast hsig
  rw [hc, value_fin]
  by_cases hs : c.getLsbD 63 = neg
  · exact ⟨sig, e, by rwa [Nat.abs_cast], he, by rw [hs]; push_cast; rfl⟩
  · refine ⟨-sig, e, by rwa [abs_neg, Nat.abs_cast], he, ?_⟩
    rw [Bool.eq_not_of_ne hs]
    cases neg <;> simp [signFactor]

/-- The pattern of a rounding is the value rounded, an infinity's too. -/
theorem roundsTo_of_isRounding (neg : Bool) {x : ℚ} {m : Nat} {q : Int} (h : IsRounding x m q) (hx : 0 < x)
    (nanBits : BitVec 64) :
    RoundsTo (signFactor neg * (x * 2 ^ q))
      (bits64 nanBits (if 971 < q ∨ (q = 971 ∧ 2 ^ 53 ≤ m) then .inf neg else .fin neg m q)) := by
  have pos : 0 < x * 2 ^ q := by positivity
  unfold RoundsTo
  rw [abs_signFactor_mul, abs_of_pos pos]
  constructor
  · intro huge
    rw [if_pos (h.overflow_iff.2 huge), ofBits_bits64_inf]
    simp only [signFactor_mul_neg_iff neg pos, Bool.decide_eq_true]
  · intro below
    have fits := mt h.overflow_iff.1 (not_le.2 below)
    obtain ⟨sig, exp, hb, same, even⟩ := ofBits_bits64_rounded neg h fits nanBits
    rw [if_neg fits, hb, value_fin, same]
    refine ⟨rfl, fun c hc => ?_⟩
    obtain ⟨k, e, hk, he, hv⟩ := signed_value_of_finite neg hc
    obtain ⟨near, tie⟩ := h.nearest_candidate hk he
    rw [hv, ← mul_sub, ← mul_sub, abs_signFactor_mul, abs_signFactor_mul]
    exact ⟨near, fun heq hne => even (tie heq fun same' => hne (by rw [same']))⟩

/-- A zero of either sign is the rounding of 0. -/
theorem roundsTo_zero (neg : Bool) (nanBits : BitVec 64) : RoundsTo 0 (bits64 nanBits (.fin neg 0 (-1074))) := by
  have hb : F64.ofBits (bits64 nanBits (.fin neg 0 (-1074))) = .fin neg 0 (-1074) :=
    ofBits_bits64 neg nanBits le_rfl (by norm_num) (by norm_num) (.inl rfl)
  unfold RoundsTo
  rw [hb, overflow_threshold, abs_zero]
  constructor
  · intro huge
    exact absurd huge (not_le.2 (mul_pos (by norm_num) (by positivity)))
  · exact fun _ => ⟨rfl, fun c _ => ⟨by simp [F64.value], fun _ _ => rfl⟩⟩

/-- The pattern of `roundF64` is the exact value rounded to nearest, ties to even. -/
theorem roundsTo_roundF64 (neg : Bool) (num : Nat) {den : Nat} (hd : 0 < den) (exp : Int) (nanBits : BitVec 64) :
    RoundsTo (signFactor neg * ((num : ℚ) / den * 2 ^ exp)) (bits64 nanBits (roundF64 neg num den exp)) := by
  rcases num.eq_zero_or_pos with rfl | hn
  · simpa [roundF64_zero] using roundsTo_zero neg nanBits
  · have h := roundsTo_of_isRounding neg (isRounding_roundedSig hn hd exp) (by positivity) nanBits
    rwa [mul_assoc (_ / _), ← zpow_add₀ two_ne_zero, sub_add_cancel, ← roundF64_of_pos neg hn] at h

end Sys2Proof.Laws
end

section
/-! PROOFS. The statements of binary64 arithmetic (spec 00_scope.md R13, 41_io_registers.md R106) and of decimal
literals (30_encoding.md R69). -/

namespace Sys2Proof.Laws

open Sys2Proof.Machine

/-! ### The exact conversion of an integer -/

theorem nearestEven_one (n : Nat) : nearestEven n 1 = n := by simp [nearestEven, Nat.mod_one]

/-- An integer of up to 53 bits is a multiple of its quantum. -/
theorem quantumExp_nat {n : Nat} (hn : 0 < n) (hlt : n < 2 ^ 53) :
    -52 ≤ quantumExp n 1 0 ∧ quantumExp n 1 0 ≤ 0 := by
  obtain ⟨low, high⟩ := floorLog2_spec hn one_pos
  rw [Nat.cast_one, div_one] at low high
  have h1 : (1 : ℚ) ≤ n := by exact_mod_cast hn
  have h2 : (n : ℚ) < 2 ^ (53 : Int) := by exact_mod_cast hlt
  have l1 : 0 < floorLog2 n 1 + 1 := (one_lt_zpow_iff_right₀ one_lt_two).1 (h1.trans_lt high)
  have l2 : floorLog2 n 1 < 53 := (zpow_lt_zpow_iff_right₀ one_lt_two).1 (low.trans_lt h2)
  unfold quantumExp
  omega

theorem roundedSig_nat {n : Nat} (hn : 0 < n) (hlt : n < 2 ^ 53) :
    roundedSig n 1 0 = n * pow2 (0 - quantumExp n 1 0) := by
  obtain ⟨-, hq⟩ := quantumExp_nat hn hlt
  rw [roundedSig, pow2_of_nonpos (by omega : quantumExp n 1 0 - 0 ≤ 0), mul_one, nearestEven_one]

/-- An integer of up to 53 bits is rounded to itself, with a normal significand where it is not zero. -/
theorem roundF64_nat (neg : Bool) {n : Nat} (hlt : n < 2 ^ 53) :
    ∃ (m : Nat) (q : Int), roundF64 neg n 1 0 = .fin neg m q ∧ m < 2 ^ 53 ∧ -1074 ≤ q ∧ q ≤ 971 ∧
      (q = -1074 ∨ 2 ^ 52 ≤ m) ∧ (m : ℚ) * 2 ^ q = n := by
  rcases n.eq_zero_or_pos with rfl | hn
  · exact ⟨0, -1074, rfl, by norm_num, le_rfl, by norm_num, .inl rfl, by simp⟩
  · obtain ⟨low, high⟩ := quantumExp_nat hn hlt
    have h := isRounding_roundedSig hn one_pos 0
    have units : (roundedSig n 1 0 : ℚ) = (n : ℚ) / (1 : Nat) * 2 ^ (0 - quantumExp n 1 0) := by
      rw [roundedSig_nat hn hlt, Nat.cast_one, div_one, Nat.cast_mul, pow2_of_nonneg (by omega)]
    have small : roundedSig n 1 0 < 2 ^ 53 := by
      have := units ▸ h.lt
      exact_mod_cast this
    refine ⟨_, _, ?_, small, h.quantum_ge, by omega, h.sig_normal, ?_⟩
    · rw [roundF64_of_pos neg hn, if_neg (by omega)]
    · rw [units, mul_assoc, ← zpow_add₀ two_ne_zero, sub_add_cancel, zpow_zero, mul_one, Nat.cast_one, div_one]

/-- Settles O39: a 16-bit value has far fewer than 53 bits. -/
theorem integerToFloatIsExact : Obligations.IntegerToFloatIsExact := by
  intro v nanBits
  have hv : v.toNat < 2 ^ 53 := v.isLt.trans (by norm_num)
  obtain ⟨m, q, hr, hm, low, high, normal, same⟩ := roundF64_nat false hv
  rw [u16ToF64, hr]
  exact ⟨ofBits_bits64 false nanBits low high hm normal, rfl, by rw [value_fin, same]; exact one_mul _⟩

/-! ### Correct rounding of the operations -/

/-- Settles O37: the product of two finite data is `roundF64` of the product of the significands. -/
theorem multiplicationIsCorrectlyRounded : Obligations.MultiplicationIsCorrectlyRounded := by
  intro a b nanBits ha hb
  obtain ⟨m, e, ha, -⟩ := ofBits_finite ha
  obtain ⟨n, f, hb, -⟩ := ofBits_finite hb
  rw [ha, hb]
  refine ⟨?_, sign_roundF64 _ (m * n) 1 (e + f) nanBits⟩
  have exact_product : (F64.fin (a.getLsbD 63) m e).value * (F64.fin (b.getLsbD 63) n f).value =
      signFactor (a.getLsbD 63 != b.getLsbD 63) * ((m * n : Nat) / (1 : Nat) * 2 ^ (e + f)) := by
    rw [value_fin, value_fin, signFactor_bne, zpow_add₀ two_ne_zero]
    push_cast
    ring
  rw [exact_product]
  exact roundsTo_roundF64 _ (m * n) one_pos (e + f) nanBits

/-- Settles O38: the quotient of two finite data is `roundF64` of the quotient of the significands, the divisor's not
zero. -/
theorem divisionIsCorrectlyRounded : Obligations.DivisionIsCorrectlyRounded := by
  intro a b nanBits ha hb hne
  obtain ⟨m, e, ha, -⟩ := ofBits_finite ha
  obtain ⟨n, f, hb, -⟩ := ofBits_finite hb
  rw [hb] at hne
  have hn : n ≠ 0 := fun h0 => hne (by simp [value_fin, h0])
  have quotient : fdiv64 (F64.ofBits a) (F64.ofBits b) =
      roundF64 (a.getLsbD 63 != b.getLsbD 63) m n (e - f) := by
    rw [ha, hb]
    exact if_neg hn
  have exact_quotient : (F64.ofBits a).value / (F64.ofBits b).value =
      signFactor (a.getLsbD 63 != b.getLsbD 63) * (m / n * 2 ^ (e - f)) := by
    rw [ha, hb, value_fin, value_fin, ← signFactor_div, zpow_sub₀ two_ne_zero, mul_div_mul_comm, mul_div_mul_comm]
  rw [quotient, exact_quotient]
  exact ⟨roundsTo_roundF64 _ m (Nat.pos_of_ne_zero hn) (e - f) nanBits, sign_roundF64 _ m n (e - f) nanBits⟩

/-- A decimal literal's quotient of powers of ten. -/
theorem decimal_quotient (digits : Nat) (exp10 : Int) :
    ((digits * 10 ^ exp10.toNat : Nat) : ℚ) / (10 ^ (-exp10).toNat : Nat) = digits * 10 ^ exp10 := by
  push_cast
  rcases le_total 0 exp10 with h | h
  · obtain ⟨n, rfl⟩ := Int.eq_ofNat_of_zero_le h
    simp
  · obtain ⟨n, rfl⟩ := Int.exists_eq_neg_ofNat h
    simp [div_eq_mul_inv]

/-- Settles O7: a decimal literal's pattern is `roundF64` of its digits times or over a power of ten. -/
theorem decimalLiteralsAreCorrectlyRounded : Obligations.DecimalLiteralsAreCorrectlyRounded := by
  intro neg digits exp10
  refine ⟨decimalBits neg digits exp10, rfl, ?_, sign_roundF64 _ _ _ _ _⟩
  have h := roundsTo_roundF64 neg (digits * 10 ^ exp10.toNat) (den := 10 ^ (-exp10).toNat) (by positivity) 0 0
  rwa [decimal_quotient, zpow_zero, mul_one, ← mul_assoc] at h

end Sys2Proof.Laws
end

section
/-! PROOFS. The canonical form of the table space (spec 00_scope.md R8, 20_memory.md R40). -/

namespace Sys2Proof.Laws

open Sys2Proof.Machine

theorem read_head {a : Nat} (ha : a < 256) (b : Byte) (rest : Memory) :
    Memory.read ((a, b) :: rest) (BitVec.ofNat 8 a) = b :=
  if_pos (Nat.mod_eq_of_lt ha).symm

/-- The first listed index of a canonical memory does not read as unlisted. -/
theorem read_head_ne_unlisted {low a : Nat} {b : Byte} {rest : Memory}
    (h : Memory.wfFrom low ((a, b) :: rest) = true) :
    Memory.read ((a, b) :: rest) (BitVec.ofNat 8 a) ≠ Memory.unlisted (BitVec.ofNat 8 a) := by
  obtain ⟨-, ha, hb, -⟩ := (wfFrom_cons ..).1 h
  rwa [read_head ha]

/-- Where two canonical memories read alike, the first listed index of the one is not below all those of the other. -/
theorem not_wfFrom_above_head {low low' a : Nat} {b : Byte} {rest m : Memory}
    (h : Memory.wfFrom low ((a, b) :: rest) = true) (same : ∀ i, Memory.read ((a, b) :: rest) i = m.read i)
    (lt : a < low') : m.wfFrom low' ≠ true := fun hm =>
  read_head_ne_unlisted h <| (same _).trans <|
    read_of_lt hm (lt_of_le_of_lt (Nat.mod_le a (2 ^ 8)) lt)

/-- Canonical memories that read alike are equal. -/
theorem eq_of_read_eq {low : Nat} {m m' : Memory} (hm : m.wfFrom low = true) (hm' : m'.wfFrom low = true)
    (same : ∀ i, m.read i = m'.read i) : m = m' := by
  induction m generalizing low m' with
  | nil =>
    cases m' with
    | nil => rfl
    | cons c rest =>
      obtain ⟨a, b⟩ := c
      exact absurd (wfFrom_nil (a + 1)) (not_wfFrom_above_head hm' (fun i => (same i).symm) (Nat.lt_succ_self a))
  | cons c rest ih =>
    obtain ⟨a, b⟩ := c
    cases m' with
    | nil => exact absurd (wfFrom_nil (a + 1)) (not_wfFrom_above_head hm same (Nat.lt_succ_self a))
    | cons c' rest' =>
      obtain ⟨a', b'⟩ := c'
      obtain ⟨hlow, ha, hb, hrest⟩ := (wfFrom_cons ..).1 hm
      obtain ⟨hlow', ha', hb', hrest'⟩ := (wfFrom_cons ..).1 hm'
      rcases lt_trichotomy a a' with lt | rfl | lt
      · exact absurd ((wfFrom_cons ..).2 ⟨le_rfl, ha', hb', hrest'⟩) (not_wfFrom_above_head hm same lt)
      · have bytes : b = b' := by
          have at_head := same (BitVec.ofNat 8 a)
          rwa [read_head ha, read_head ha] at at_head
        have tails : ∀ i, Memory.read rest i = Memory.read rest' i := fun i => by
          rcases eq_or_ne a i.toNat with rfl | hi
          · rw [read_of_lt hrest (Nat.lt_succ_self _), read_of_lt hrest' (Nat.lt_succ_self _)]
          · have at_i := same i
            rwa [read_cons, read_cons, if_neg hi, if_neg hi] at at_i
        rw [bytes, ih hrest hrest' tails]
      · exact absurd ((wfFrom_cons ..).2 ⟨le_rfl, ha, hb, hrest⟩)
          (not_wfFrom_above_head hm' (fun i => (same i).symm) lt)

/-- Supplying the bytes of a list of indices one after another lists them all in one canonical memory. -/
theorem exists_wf_read_eq (f : Byte → Byte) (indices : List Byte) :
    ∃ m : Memory, m.wf = true ∧ ∀ i ∈ indices, m.read i = f i := by
  induction indices with
  | nil => exact ⟨[], rfl, by simp⟩
  | cons i rest ih =>
    obtain ⟨m, hm, same⟩ := ih
    refine ⟨m.supply i (f i), supply_wf hm i (f i), fun j hj => ?_⟩
    rw [read_supply hm]
    split
    · next h => rw [h]
    · next h => exact same j ((List.mem_cons.1 hj).resolve_left h)

/-- Settles O23: all 256 bytes can be supplied, and canonical memories that read alike are equal. -/
theorem everyTableHasOneCanonicalMemory : Obligations.EveryTableHasOneCanonicalMemory := by
  intro f
  obtain ⟨m, hm, same⟩ := exists_wf_read_eq f ((List.range 256).map (BitVec.ofNat 8))
  have all : ∀ i, m.read i = f i := fun i =>
    same i (List.mem_map.2 ⟨i.toNat, List.mem_range.2 i.isLt, ofNat_toNat_byte i⟩)
  exact ⟨m, ⟨hm, all⟩, fun m' hm' same' => eq_of_read_eq hm' hm fun i => (same' i).trans (all i).symm⟩

end Sys2Proof.Laws
end

section
/-! SUPPORT. What all commands share: each answers a next state and leaves the table and the runner alone; which
statuses and inputs a receive can answer; and what a step does at a word of the program. -/

namespace Sys2Proof.Laws

open Sys2Proof.Machine

/-! ### The commands -/

/-- Every command answers a next state (spec 70_reset_and_hazards.md R190). -/
theorem exec_next (i : Instr) (s : State) : ∃ t, exec i s = .next t := by
  cases i with
  | setout bit v => exact ⟨_, exec_setout s bit v⟩
  | getout bit => exact ⟨_, exec_getout s bit⟩
  | getin bit => exact ⟨_, exec_getin s bit⟩
  | _ => exact ⟨_, rfl⟩

/-- No command writes the table, the program, the position or the reset requests. -/
theorem exec_frame {i : Instr} {s t : State} (h : exec i s = .next t) :
    t.table = s.table ∧ t.program = s.program ∧ t.pc = s.pc ∧ t.resetAt = s.resetAt := by
  cases i with
  | setout bit v => rw [exec_setout] at h; cases h; split <;> exact ⟨rfl, rfl, rfl, rfl⟩
  | getout bit => rw [exec_getout] at h; cases h; split <;> exact ⟨rfl, rfl, rfl, rfl⟩
  | getin bit => rw [exec_getin] at h; cases h; split <;> exact ⟨rfl, rfl, rfl, rfl⟩
  | _ => cases h; exact ⟨rfl, rfl, rfl, rfl⟩

/-! ### The receive step -/

/-- A receive answers none of the statuses that belong to other commands. -/
theorem rxStep_status_ne (t : Memory) (idx : Byte) (inp : BitVec 32) (ev : RxEvent) :
    (rxStep t idx inp ev).status ≠ .bitRange ∧ (rxStep t idx inp ev).status ≠ .invalidInput ∧
      (rxStep t idx inp ev).status ≠ .illegalCmd := by
  obtain ⟨-, h⟩ | ⟨-, h⟩ | ⟨_, -, -, h⟩ | ⟨_, _, _, _, _, -, -, h⟩ | ⟨_, _, _, _, _, -, -, h⟩ :=
    rxStep_cases t idx inp ev
  all_goals rw [h]; exact ⟨nofun, nofun, nofun⟩

/-- A receive that changes the input word has validated. -/
theorem rxStep_status_of_inputs_ne (t : Memory) (idx : Byte) (inp : BitVec 32) (ev : RxEvent)
    (hne : (rxStep t idx inp ev).inputs ≠ inp) : (rxStep t idx inp ev).status = .ok := by
  obtain ⟨-, h⟩ | ⟨-, h⟩ | ⟨_, -, -, h⟩ | ⟨_, _, _, _, _, -, -, h⟩ | ⟨_, _, _, _, _, -, -, h⟩ :=
    rxStep_cases t idx inp ev
  case inr.inr.inr.inl => rw [h]
  all_goals exact absurd (by rw [h]) hne

/-- The bytes of the receive port's data. -/
theorem rxDataOfBytes_bytes (b0 b1 b2 b3 b4 : Byte) :
    (List.range 5).map (fun k => (rxDataOfBytes b0 b1 b2 b3 b4).extractLsb' (8 * k) 8) = [b0, b1, b2, b3, b4] := by
  have bytes : ∀ (k : Nat) (b : Byte),
      (∀ i < 8, (rxDataOfBytes b0 b1 b2 b3 b4).getLsbD (8 * k + i) = b.getLsbD i) →
      (rxDataOfBytes b0 b1 b2 b3 b4).extractLsb' (8 * k) 8 = b := fun k b h =>
    BitVec.eq_of_getLsbD_eq fun i hi => by simp [hi, h i hi]
  simp only [List.range_succ, List.range_zero, List.nil_append, List.cons_append, List.map_cons, List.map_nil,
    List.cons.injEq, and_true]
  refine ⟨bytes 0 _ ?_, bytes 1 _ ?_, bytes 2 _ ?_, bytes 3 _ ?_, bytes 4 _ ?_⟩ <;> intro i hi <;>
    rw [getLsbD_rxDataOfBytes, getLsbD_inputWord] <;> grind

/-- A datagram of 5 bytes is on the ports whole. -/
theorem rxEventOfPins_five (b0 b1 b2 b3 c : Byte) :
    rxEventOfPins (rxPinsOfEvent (.datagram [b0, b1, b2, b3, c])) = some (.datagram [b0, b1, b2, b3, c]) :=
  congrArg (fun bytes => some (RxEvent.datagram bytes)) (rxDataOfBytes_bytes b0 b1 b2 b3 c)

/-- The ports of a datagram that is not of 5 bytes carry its length alone. -/
theorem rxPinsOfEvent_malformed {d : List Byte} (h : d.length ≠ 5) : rxPinsOfEvent (.datagram d) = ⟨2, d.length, 0⟩ := by
  unfold rxPinsOfEvent
  split
  · contradiction
  · contradiction
  · next he => cases he; exact absurd rfl h
  · next he => cases he; rfl

/-- Of a datagram that is not of 5 bytes only the length is on the ports. -/
theorem rxEventOfPins_malformed {d : List Byte} (h : d.length ≠ 5) :
    rxEventOfPins (rxPinsOfEvent (.datagram d)) = some (.datagram (List.replicate d.length 0)) := by
  simp [rxPinsOfEvent_malformed h, rxEventOfPins, h]

/-! ### The step -/

/-- At a word of the program, with no reset due, the step's next state is one further, with the table, the program and
the reset requests as they were (R30). -/
theorem step_at_word {s : State} (hr : s.resetDue = false) (hlt : s.pc < s.program.length) :
    ∃ t, step s = .next t ∧ t.table = s.table ∧ t.program = s.program ∧ t.pc = s.pc + 1 ∧ t.resetAt = s.resetAt := by
  have hw : s.currentWord = some s.program[s.pc] := (currentWord_eq_some_iff ..).2 ⟨hlt, rfl⟩
  cases hd : decode s.program[s.pc] with
  | illegal why => exact ⟨_, step_illegal hr hw hd, rfl, rfl, rfl, rfl⟩
  | command i =>
    obtain ⟨u, he⟩ := exec_next i s
    obtain ⟨htable, hprogram, hpc, hreset⟩ := exec_frame he
    exact ⟨_, step_command hr hw hd he, htable, hprogram, congrArg (· + 1) hpc, hreset⟩

theorem resetDue_of_resetAt_nil {s : State} (h : s.resetAt = []) : s.resetDue = false := by
  simp [State.resetDue, h]

/-- A state that a step keeps is kept by every run. -/
theorem runsTo_self {s : State} (h : step s = .next s) (k : Nat) : runsTo k s s := by
  induction k with
  | zero => rfl
  | succ k ih => exact ⟨s, h, ih⟩

/-- With no reset requested, `n` words before the program's end are run in `n` steps. -/
theorem runsTo_end (n : Nat) {s : State} (hr : s.resetAt = []) (hn : s.pc + n = s.program.length) :
    ∃ t, runsTo n s t ∧ t.pc = s.program.length ∧ t.program = s.program ∧ t.resetAt = [] := by
  induction n generalizing s with
  | zero => exact ⟨s, rfl, hn, rfl, hr⟩
  | succ n ih =>
    obtain ⟨u, hstep, -, hprogram, hpc, hreset⟩ := step_at_word (resetDue_of_resetAt_nil hr) (by omega)
    obtain ⟨t, hrun, hend, hsame, hnil⟩ := ih (s := u) (hreset.trans hr) (by rw [hpc, hprogram]; omega)
    exact ⟨t, ⟨u, hstep, hrun⟩, hprogram ▸ hend, hsame.trans hprogram, hnil⟩

/-! ### The placed word -/

theorem decodeTableWord_eq_some {nbits w : Nat} {i : Instr} (h : decodeTableWord nbits w = some i) :
    decode (tableWord nbits w) = .command i := by
  unfold decodeTableWord at h
  split at h
  · next hd => cases h; exact hd
  · cases h

/-- No reset request that is due stands before a placed word. -/
theorem resetDue_withFetchWord (s : State) (nbits w : Nat) : (s.withFetchWord nbits w).resetDue = false := by
  rw [Bool.eq_false_iff, ne_eq, resetDue_iff]
  rintro ⟨p, rest, hdrop, hle⟩
  have head := List.head?_dropWhile_not (fun p => decide (p ≤ s.pc)) s.resetAt
  have hdrop : s.resetAt.dropWhile (fun p => decide (p ≤ s.pc)) = p :: rest := hdrop
  simp only [hdrop, List.head?_cons, decide_eq_false_iff_not] at head
  exact head hle

/-- The word placed is the word at the runner's position. -/
theorem currentWord_withFetchWord (s : State) (nbits w : Nat) :
    (s.withFetchWord nbits w).currentWord = some (tableWord nbits w) :=
  placeWord_get _ _ _

end Sys2Proof.Laws
end

section
/-! PROOFS. The machine's invariant (spec 10_state.md R36, 42_exchange.md R130, R137, R142, 60_exceptions.md R161) and
the table that nothing writes (20_memory.md R41). -/

namespace Sys2Proof.Laws

open Sys2Proof.Machine

/-! ### The invariant after each update -/

/-- A report meets the invariant where its data agrees with its status: it emits no frame and makes no send. -/
theorem inv_report {s : State} {st : Status} {d : BitVec 64} (hwf : s.table.wf = true)
    (hpc : s.pc ≤ s.program.length) (produced : st ≠ .invalidInput)
    (zero : st = .timeout ∨ st = .xerr ∨ st = .illegalCmd → d = 0)
    (differs : st = .mismatch → ∃ c : Byte, c ≠ s.table.read s.idxIn ∧ d = mismatchData (s.table.read s.idxIn) c)
    (index : st = .bitRange → ∃ bit, 16 ≤ bit ∧ bit < 32 ∧ d = BitVec.ofNat 64 bit) : (s.report st d).Inv where
  table_wf := hwf
  pc_le := hpc
  no_frame _ := rfl
  frame := nofun
  send := nofun
  bytes_in_range := produced
  no_datagram h := zero (h.imp_right .inl)
  mismatch := differs
  bit_range h := ⟨index h, rfl⟩
  illegal h := ⟨zero (.inr (.inr h)), rfl⟩

theorem inv_report_ok {s : State} (hwf : s.table.wf = true) (hpc : s.pc ≤ s.program.length) {d : BitVec 64} :
    (s.report .ok d).Inv :=
  inv_report hwf hpc nofun nofun nofun nofun

theorem inv_report_bitRange {s : State} (hwf : s.table.wf = true) (hpc : s.pc ≤ s.program.length) {bit : Nat}
    (h16 : 16 ≤ bit) (h32 : bit < 32) : (s.report .bitRange (BitVec.ofNat 64 bit)).Inv :=
  inv_report hwf hpc nofun nofun nofun fun _ => ⟨bit, h16, h32, rfl⟩

/-- A receive meets the invariant: a mismatch's expected checksum is the table's entry at the cursor it leaves. -/
theorem inv_receive {s : State} (hwf : s.table.wf = true) (hpc : s.pc ≤ s.program.length) (inp : BitVec 32)
    (ev : RxEvent) : (s.receive (rxStep s.table s.idxIn inp ev)).Inv := by
  obtain ⟨-, h⟩ | ⟨-, h⟩ | ⟨_, -, -, h⟩ | ⟨_, _, _, _, _, -, -, h⟩ | ⟨_, _, _, _, c, -, hc, h⟩ :=
    rxStep_cases s.table s.idxIn inp ev
  all_goals rw [receive_eq, h]
  · exact inv_report hwf hpc nofun (fun _ => rfl) nofun nofun
  · exact inv_report hwf hpc nofun (fun _ => rfl) nofun nofun
  · exact inv_report hwf hpc nofun nofun nofun nofun
  · apply inv_report_ok <;> assumption
  · exact inv_report hwf hpc nofun nofun (fun _ => ⟨c, hc.symm, rfl⟩) nofun

/-- Emitting the outbound packet keeps the invariant where the status is not that of a rejected command. -/
theorem inv_emitTx {s : State} (h : s.Inv) (hbit : s.status ≠ .bitRange) (hillegal : s.status ≠ .illegalCmd)
    {frame : BitVec 24} (hframe : frame = s.table.read s.idxOut ++ s.outputs) : (s.emitTx frame).Inv :=
  { h with
    no_frame := nofun
    frame := fun _ => hframe
    send := fun _ => rfl
    bit_range := fun hs => absurd hs hbit
    illegal := fun hs => absurd hs hillegal }

theorem inv_recordSend {s : State} (h : s.Inv) (hframe : s.txValid = true) {o : SendOutcome} :
    (s.recordSend o).Inv :=
  { h with send := fun _ => hframe }

theorem inv_advance {s : State} (h : s.Inv) (hlt : s.pc < s.program.length) : s.advance.Inv :=
  { h with pc_le := hlt }

/-- Reset drives the ports as a report of OK and 0 does. -/
theorem inv_takeReset {s : State} (h : s.Inv) : s.takeReset.Inv :=
  inv_report_ok (s := s.takeReset) h.table_wf h.pc_le

/-- The outbound packet's frame is the checksum at the new cursor over `OUTPUTS`. -/
theorem outboundPacket_frame (t : Memory) (idx : Byte) (o : BitVec 16) :
    (outboundPacket t idx o).2 = t.read (outboundPacket t idx o).1 ++ o :=
  (outboundPacket_snd t idx o).trans (txFrame_outputs o _)

/-! ### The invariant along a step -/

/-- Every well-formed command keeps the invariant. -/
theorem exec_keeps_inv {i : Instr} {s t : State} (hs : s.Inv) (hi : i.wellFormed = true) (h : exec i s = .next t) :
    t.Inv := by
  have hwf := hs.table_wf
  have hpc := hs.pc_le
  cases i with
  | cko2 | cki4 | currst | getanalog | setscale => cases h; apply inv_report_ok <;> assumption
  | setout bit v =>
    rw [exec_setout] at h
    cases h
    split
    · next h16 => exact inv_report_bitRange hwf hpc h16 (of_decide_eq_true hi)
    · apply inv_report_ok <;> assumption
  | getout bit =>
    rw [exec_getout] at h
    cases h
    split
    · next h16 => exact inv_report_bitRange hwf hpc h16 (of_decide_eq_true hi)
    · apply inv_report_ok <;> assumption
  | getin bit =>
    rw [exec_getin, if_neg (Nat.not_le.2 (of_decide_eq_true hi))] at h
    cases h
    apply inv_report_ok <;> assumption
  | txbuild =>
    cases h
    refine inv_emitTx ?_ ?_ ?_ (outboundPacket_frame s.table s.idxOut s.outputs)
    · apply inv_report_ok <;> assumption
    · nofun
    · nofun
  | rxcheck => cases h; exact inv_receive (s := s.consumeRx) hwf hpc _ _
  | update =>
    cases h
    obtain ⟨hbit, -, hillegal⟩ := rxStep_status_ne s.table s.idxIn s.inputs s.rxEvent
    have received := inv_receive
      (s := s.consumeSend.consumeRx.setIdxOut (outboundPacket s.table s.idxOut s.outputs).1) hwf hpc s.inputs s.rxEvent
    exact inv_recordSend (inv_emitTx received hbit hillegal (outboundPacket_frame s.table s.idxOut s.outputs)) rfl

/-- Settles O21: each of the four things that a step can do keeps the invariant. -/
theorem everyStepKeepsTheInvariant : Obligations.EveryStepKeepsTheInvariant := by
  intro s t hs h
  obtain ⟨-, rfl⟩ | ⟨-, -, rfl⟩ | ⟨w, why, -, hw, -, rfl⟩ | ⟨w, i, u, -, hw, hd, he, rfl⟩ := step_cases h
  · exact inv_takeReset hs
  · exact hs
  · obtain ⟨hlt, -⟩ := (currentWord_eq_some_iff s w).1 hw
    exact inv_advance (inv_report hs.table_wf hs.pc_le nofun (fun _ => rfl) nofun nofun) hlt
  · obtain ⟨hlt, -⟩ := (currentWord_eq_some_iff s w).1 hw
    obtain ⟨-, hprogram, hpc, -⟩ := exec_frame he
    exact inv_advance (exec_keeps_inv hs (wellFormed_of_decode hd) he) (by rwa [hpc, hprogram])

/-- Settles O22: of the four things that a step can do, only a command could, and none does. -/
theorem tableIsNeverWritten : Obligations.TableIsNeverWritten := by
  intro s t h
  obtain ⟨-, rfl⟩ | ⟨-, -, rfl⟩ | ⟨w, why, -, -, -, rfl⟩ | ⟨w, i, u, -, -, -, he, rfl⟩ := step_cases h
  · rfl
  · rfl
  · rfl
  · exact (exec_frame he).1

end Sys2Proof.Laws
end

section
/-! PROOFS. The state, its writers and the runner (spec 10_state.md R20 to R36, R180 of 70_reset_and_hazards.md). -/

namespace Sys2Proof.Laws

open Sys2Proof.Machine

/-! ### The runner -/

/-- Settles O9: every command answers a next state, and the step moves the position on from there. -/
theorem stepRunsTheDecodedCommand : Obligations.StepRunsTheDecodedCommand := by
  intro s w i hr hw hd
  obtain ⟨t, he⟩ := exec_next i s
  rw [he]
  exact step_command hr hw hd he

/-- Settles O11: the word at the position is a command or illegal, and either way the runner goes on. -/
theorem runnerAdvancesByOneAfterEveryCommand : Obligations.RunnerAdvancesByOneAfterEveryCommand := by
  intro s hr hlt
  obtain ⟨t, hstep, -, hprogram, hpc, hreset⟩ := step_at_word hr hlt
  exact ⟨t, hstep, hpc, hprogram, hreset⟩

/-- Settles O14: the words left are run one a step, and at the program's end the block is idle. -/
theorem programOfManyCommandsEndsAfterAsManySteps : Obligations.ProgramOfManyCommandsEndsAfterAsManySteps := by
  intro s hr hle
  obtain ⟨t, hrun, hend, hprogram, hnil⟩ := runsTo_end (s.program.length - s.pc) hr (by omega)
  have idle : step t = .next t :=
    step_idle (resetDue_of_resetAt_nil hnil) ((currentWord_eq_none_iff t).2 (by rw [hprogram, hend]))
  exact ⟨t, hrun, hend, hprogram, runsTo_self idle⟩

/-- Settles O19: the word placed stands at the runner's position and no reset is due before it. -/
theorem placedWordIsRunNext : Obligations.PlacedWordIsRunNext := by
  intro s nbits w i hi
  exact ⟨rfl, fun t he => step_command (resetDue_withFetchWord s nbits w) (currentWord_withFetchWord s nbits w)
    (decodeTableWord_eq_some hi) he⟩

/-- Settles O17: the values that the model gives the reset state. -/
theorem stateAfterReset : Obligations.StateAfterReset :=
  ⟨rfl, rfl, rfl, rfl, rfl, rfl, rfl, rfl, rfl, rfl⟩

/-! ### The transport -/

/-- Settles O47: the listed and the free answers of both lists, and the two commands that use them. -/
theorem transportAnswersAreListedOrFree : Obligations.TransportAnswersAreListedOrFree := by
  refine ⟨fun s ev rest => ?_, fun s o rest => ?_, fun s => ⟨_, _, exec_rxcheck s, exec_update s, rfl, rfl⟩⟩
  · obtain ⟨hev, hrest⟩ := rxEvent_listed (s := { s with rxAnswers := ev :: rest }) rfl
    exact ⟨hev, hrest, rfl, rfl⟩
  · obtain ⟨ho, hrest⟩ := sendOutcome_listed (s := { s with sendAnswers := o :: rest }) rfl
    exact ⟨ho, hrest, rfl, rfl⟩

/-- Settles O48: a datagram of 5 bytes is on the ports whole, and of any other only the length is read. -/
theorem receivePortsCarryAllThatIsRead : Obligations.ReceivePortsCarryAllThatIsRead := by
  intro t idx inp ev
  obtain ⟨rfl, -⟩ | ⟨rfl, -⟩ | ⟨d, rfl, h, -⟩ | ⟨b0, b1, b2, b3, c, rfl, -⟩ | ⟨b0, b1, b2, b3, c, rfl, -⟩ :=
    rxStep_cases t idx inp ev
  · exact ⟨_, rfl, rfl⟩
  · exact ⟨_, rfl, rfl⟩
  · refine ⟨_, rxEventOfPins_malformed h, ?_⟩
    rw [rxStep_malformed t idx inp h, rxStep_malformed t idx inp (by rwa [List.length_replicate]),
      List.length_replicate]
  · exact ⟨_, rxEventOfPins_five .., rfl⟩
  · exact ⟨_, rxEventOfPins_five .., rfl⟩

/-! ### Which command writes and reads what -/

/-- Settles O52: one case per command; a receive changes the input word only where it validates. -/
theorem stateChangesOnlyByItsWriters : Obligations.StateChangesOnlyByItsWriters := by
  intro s t i h
  cases i with
  | setout bit v => rw [exec_setout] at h; cases h; split <;> simp
  | getout bit => rw [exec_getout] at h; cases h; split <;> simp
  | getin bit => rw [exec_getin] at h; cases h; split <;> simp
  | rxcheck | update =>
    cases h
    simpa using rxStep_status_of_inputs_ne s.table s.idxIn s.inputs s.rxEvent
  | _ => cases h; simp

/-- Settles O53: the new cursor and the results are computed from the one cursor alone. -/
theorem cursorsAreIndependent : Obligations.CursorsAreIndependent := by
  constructor
  · rintro s i x (⟨p0, p1, rfl⟩ | rfl)
    · exact ⟨_, exec_cko2 s p0 p1, rfl, rfl⟩
    · exact ⟨_, exec_txbuild s, rfl, rfl⟩
  · rintro s i x (⟨q0, q1, q2, q3, rfl⟩ | rfl)
    · exact ⟨_, exec_cki4 s q0 q1 q2 q3, rfl, rfl⟩
    · exact ⟨_, exec_rxcheck s, rfl, rfl⟩

/-- Settles O54: every command drives all five result ports from the rest of the state. -/
theorem resultPortsAreNeverRead : Obligations.ResultPortsAreNeverRead := by
  intro s i st e v d f
  cases i <;> rfl

/-- Settles O56: one case per command; a well-formed GETIN is never out of range. -/
theorem statusesHaveTheirCodesAndProducers : Obligations.StatusesHaveTheirCodesAndProducers := by
  refine ⟨⟨rfl, rfl, rfl, rfl, rfl, rfl, rfl, rfl⟩, fun s i hi => ?_⟩
  cases i with
  | setout bit v =>
    refine ⟨_, exec_setout s bit v, ?_⟩
    split <;> simp
  | getout bit =>
    refine ⟨_, exec_getout s bit, ?_⟩
    split <;> simp
  | getin bit =>
    refine ⟨_, exec_getin s bit, ?_⟩
    rw [if_neg (Nat.not_le.2 (of_decide_eq_true hi))]
    simp
  | rxcheck =>
    have := rxStep_status_ne s.table s.idxIn s.inputs s.rxEvent
    exact ⟨_, exec_rxcheck s, by simpa⟩
  | update =>
    have := rxStep_status_ne s.table s.idxIn s.inputs s.rxEvent
    exact ⟨_, exec_update s, by simpa⟩
  | _ => exact ⟨_, rfl, by simp⟩

end Sys2Proof.Laws
end


section
/-! PROOFS. The commands that only read (spec 20_memory.md R47): each is one report, and no command reads the ports
that a report drives. -/

namespace Sys2Proof.Laws

open Sys2Proof.Machine

/-- A report drives the result ports alone (R12), so the state elements and `T` are kept. -/
theorem report_sameArch (s : State) (st : Status) (d : BitVec 64) : s.SameArch (s.report st d) :=
  ⟨rfl, rfl, rfl, rfl, rfl, rfl⟩

/-- A command after a report does what it does without it: no command reads the result ports (R31, R36). -/
theorem exec_report (i : Instr) (s : State) (st : Status) (d : BitVec 64) : exec i (s.report st d) = exec i s :=
  resultPortsAreNeverRead s i st false false d 0

/-- GETOUT, GETIN and GETANALOG do nothing but report, an index out of range included (R100). -/
theorem exec_reading_eq_report {i : Instr} (s : State)
    (hi : (∃ bit, i = .getout bit) ∨ (∃ bit, i = .getin bit) ∨ i = .getanalog) :
    ∃ st d, exec i s = .next (s.report st d) := by
  obtain ⟨bit, rfl⟩ | ⟨bit, rfl⟩ | rfl := hi
  · rw [exec_getout]
    split <;> exact ⟨_, _, rfl⟩
  · rw [exec_getin]
    split <;> exact ⟨_, _, rfl⟩
  · exact ⟨_, _, exec_getanalog s⟩

/-- Settles O55: the command is a report, which keeps the state elements, and its repetition does not see it. -/
theorem readingCommandsChangeNothing : Obligations.ReadingCommandsChangeNothing := by
  intro s i hi
  obtain ⟨st, d, he⟩ := exec_reading_eq_report s hi
  exact ⟨s.report st d, he, report_sameArch s st d, (exec_report i s st d).trans he⟩

end Sys2Proof.Laws
end

section
/-! SUPPORT. Words and arguments as numbers: the value of a word and of each format's argument, and the fields of an
argument as quotients and remainders of its value (spec 30_encoding.md R60, R61, R63). -/

namespace Sys2Proof.Laws

open Sys2Proof.Machine

/-! ### Values -/

theorem toNat_append_add {m n : Nat} (x : BitVec m) (y : BitVec n) : (x ++ y).toNat = x.toNat * 2 ^ n + y.toNat := by
  rw [BitVec.toNat_append, ← Nat.shiftLeft_add_eq_or_of_lt y.isLt, Nat.shiftLeft_eq]

theorem toNat_word (opc : Byte) (arg : BitVec 64) :
    BitVec.toNat (w := 72) (opc ++ arg) = opc.toNat * 2 ^ 64 + arg.toNat := toNat_append_add opc arg

theorem toNat_argP2 (p0 p1 : Byte) : (argP2 p0 p1).toNat = p1.toNat * 2 ^ 8 + p0.toNat := by
  refine (toNat_append_add 0#48 (p1 ++ p0)).trans ?_
  simp only [toNat_append_add, BitVec.toNat_ofNat]
  omega

theorem toNat_argP4 (q0 q1 q2 q3 : Byte) :
    (argP4 q0 q1 q2 q3).toNat = q3.toNat * 2 ^ 24 + q2.toNat * 2 ^ 16 + q1.toNat * 2 ^ 8 + q0.toNat := by
  refine (toNat_append_add 0#32 (q3 ++ (q2 ++ (q1 ++ q0)))).trans ?_
  simp only [toNat_append_add, BitVec.toNat_ofNat]
  omega

theorem toNat_argB (bit : Nat) (v : Bool) : (argB bit v).toNat = v.toNat * 2 ^ 8 + bit % 2 ^ 5 := by
  have hv : (BitVec.ofBool v).toNat = v.toNat := BitVec.toNat_ofBool v
  refine (toNat_append_add 0#55 (BitVec.ofBool v ++ (0#3 ++ BitVec.ofNat 5 bit))).trans ?_
  simp only [toNat_append_add, BitVec.toNat_ofNat]
  omega

/-! ### Fields as quotients and remainders -/

theorem toNat_argByte (arg : BitVec 64) (k : Nat) : (argByte arg k).toNat = arg.toNat / 2 ^ (8 * k) % 2 ^ 8 := by
  rw [argByte, BitVec.extractLsb'_toNat, Nat.shiftRight_eq_div_pow]

theorem argBit_eq_mod (arg : BitVec 64) : argBit arg = arg.toNat % 2 ^ 5 := by
  simp [argBit, BitVec.extractLsb'_toNat]

theorem toNat_argV (arg : BitVec 64) : (argV arg).toNat = arg.toNat / 2 ^ 8 % 2 := by
  rw [argV, BitVec.getLsbD, Nat.toNat_testBit]

theorem extractLsb'_eq_zero_iff (arg : BitVec 64) (start len : Nat) :
    arg.extractLsb' start len = 0 ↔ arg.toNat / 2 ^ start % 2 ^ len = 0 := by
  rw [← BitVec.toNat_inj, BitVec.extractLsb'_toNat, Nat.shiftRight_eq_div_pow]
  simp

/-! ### The fields of each format's argument, and the argument rebuilt from its fields -/

theorem argByte_argP2 (p0 p1 : Byte) : argByte (argP2 p0 p1) 0 = p0 ∧ argByte (argP2 p0 p1) 1 = p1 := by
  simp only [← BitVec.toNat_inj, toNat_argByte, toNat_argP2]
  omega

theorem argByte_argP4 (q0 q1 q2 q3 : Byte) :
    argByte (argP4 q0 q1 q2 q3) 0 = q0 ∧ argByte (argP4 q0 q1 q2 q3) 1 = q1 ∧
    argByte (argP4 q0 q1 q2 q3) 2 = q2 ∧ argByte (argP4 q0 q1 q2 q3) 3 = q3 := by
  simp only [← BitVec.toNat_inj, toNat_argByte, toNat_argP4]
  omega

theorem argBit_argB {bit : Nat} (h : bit < 32) (v : Bool) : argBit (argB bit v) = bit := by
  rw [argBit_eq_mod, toNat_argB]
  omega

theorem argV_argB (bit : Nat) (v : Bool) : argV (argB bit v) = v := by
  rw [argV, getLsbD_argB]
  simp

theorem reserved_argP2 (p0 p1 : Byte) : (argP2 p0 p1).extractLsb' 16 48 = 0 := by
  rw [extractLsb'_eq_zero_iff, toNat_argP2]
  omega

theorem reserved_argP4 (q0 q1 q2 q3 : Byte) : (argP4 q0 q1 q2 q3).extractLsb' 32 32 = 0 := by
  rw [extractLsb'_eq_zero_iff, toNat_argP4]
  omega

theorem reserved_argB (bit : Nat) (v : Bool) :
    (argB bit v).extractLsb' 9 55 = 0 ∧ (argB bit v).extractLsb' 5 3 = 0 := by
  have hv := v.toNat_le
  simp only [extractLsb'_eq_zero_iff, toNat_argB]
  omega

/-- GETOUT and GETIN reserve `V` too. -/
theorem reserved_argB_false (bit : Nat) : (argB bit false).extractLsb' 5 59 = 0 := by
  rw [extractLsb'_eq_zero_iff, toNat_argB, Bool.toNat_false]
  omega

theorem argP2_fields {arg : BitVec 64} (h : arg.extractLsb' 16 48 = 0) :
    argP2 (argByte arg 0) (argByte arg 1) = arg := by
  rw [extractLsb'_eq_zero_iff] at h
  simp only [← BitVec.toNat_inj, toNat_argP2, toNat_argByte]
  omega

theorem argP4_fields {arg : BitVec 64} (h : arg.extractLsb' 32 32 = 0) :
    argP4 (argByte arg 0) (argByte arg 1) (argByte arg 2) (argByte arg 3) = arg := by
  rw [extractLsb'_eq_zero_iff] at h
  simp only [← BitVec.toNat_inj, toNat_argP4, toNat_argByte]
  omega

theorem argB_fields {arg : BitVec 64} (hhigh : arg.extractLsb' 9 55 = 0) (hlow : arg.extractLsb' 5 3 = 0) :
    argB (argBit arg) (argV arg) = arg := by
  rw [extractLsb'_eq_zero_iff] at hhigh hlow
  simp only [← BitVec.toNat_inj, toNat_argB, toNat_argV, argBit_eq_mod]
  omega

theorem argB_false_fields {arg : BitVec 64} (h : arg.extractLsb' 5 59 = 0) : argB (argBit arg) false = arg := by
  rw [extractLsb'_eq_zero_iff] at h
  simp only [← BitVec.toNat_inj, toNat_argB, argBit_eq_mod, Bool.toNat_false]
  omega

/-- A word with a given opcode and a given argument. -/
theorem word_eq {w : CommandWord} {opc : Byte} {arg : BitVec 64} (hopc : opcodeOf w = opc) (harg : arg = argOf w) :
    opc ++ arg = w := by
  rw [← hopc, harg, append_fields]

end Sys2Proof.Laws
end

section
/-! PROOFS. The encoding (spec 30_encoding.md R60 to R72): the decoder against the encoder and the opcode table, the
words and refusals of the assembler, and the illegal word. -/

namespace Sys2Proof.Laws

open Sys2Proof.Machine

/-! ### Decoder and encoder -/

/-- Settles O2: the decoder reads each format's fields off its argument, whose reserved bits are zero. -/
theorem decodingAnEncodedCommandGivesItBack : Obligations.DecodingAnEncodedCommandGivesItBack := by
  intro i hi
  cases i with
  | cko2 p0 p1 => simp [decode, encode, reserved_argP2, argByte_argP2]
  | cki4 q0 q1 q2 q3 => simp [decode, encode, reserved_argP4, argByte_argP4]
  | setout bit v =>
    have hbit : bit < 32 := of_decide_eq_true hi
    simp [decode, encode, reserved_argB, argBit_argB hbit, argV_argB]
  | getout bit =>
    have hbit : bit < 32 := of_decide_eq_true hi
    simp [decode, encode, reserved_argB_false, argBit_argB hbit]
  | getin bit =>
    have hbit : bit < 32 := of_decide_eq_true hi
    simp [decode, encode, reserved_argB_false, argBit_argB hbit]
  | setscale f64 => simp [decode, encode]
  | currst | getanalog | txbuild | rxcheck | update => rfl

/-- Settles O3: the argument is rebuilt from the operands, since its reserved bits are zero. -/
theorem encodingADecodedWordGivesItBack : Obligations.EncodingADecodedWordGivesItBack := by
  intro w i h
  refine ⟨wellFormed_of_decode h, ?_⟩
  obtain ⟨hopc, hr, rfl⟩ | ⟨hopc, hr, rfl⟩ | ⟨hopc, harg, rfl⟩ | ⟨hopc, hhigh, hlow, rfl⟩ | ⟨hopc, hr, rfl⟩ |
    ⟨hopc, hr, rfl⟩ | ⟨hopc, harg, rfl⟩ | ⟨hopc, rfl⟩ | ⟨hopc, harg, rfl⟩ | ⟨hopc, harg, rfl⟩ | ⟨hopc, harg, rfl⟩ :=
    decode_command_cases h
  · exact word_eq hopc (argP2_fields hr)
  · exact word_eq hopc (argP4_fields hr)
  · exact word_eq hopc harg.symm
  · exact word_eq hopc (argB_fields hhigh hlow)
  · exact word_eq hopc (argB_false_fields hr)
  · exact word_eq hopc (argB_false_fields hr)
  · exact word_eq hopc harg.symm
  · exact word_eq hopc rfl
  · exact word_eq hopc harg.symm
  · exact word_eq hopc harg.symm
  · exact word_eq hopc harg.symm

/-- Settles O1: each listed word is evaluated. -/
theorem workedEncodingsDecode : Obligations.WorkedEncodingsDecode := by
  unfold Obligations.WorkedEncodingsDecode
  decide

/-! ### The opcode table -/

/-- Every command's word matches a row of the table. -/
theorem encode_matches_row (i : Instr) : ∃ r ∈ opcodeTable, r.matches (encode i) = true := by
  have hrow : TableRow.Statement i := by
    cases i with
    | cko2 p0 p1 => exact TableRow.cko2 p0 p1
    | cki4 q0 q1 q2 q3 => exact TableRow.cki4 q0 q1 q2 q3
    | currst => exact TableRow.currst
    | setout bit v => exact TableRow.setout bit v
    | getout bit => exact TableRow.getout bit
    | getin bit => exact TableRow.getin bit
    | getanalog => exact TableRow.getanalog
    | setscale f64 => exact TableRow.setscale f64
    | txbuild => exact TableRow.txbuild
    | rxcheck => exact TableRow.rxcheck
    | update => exact TableRow.update
  obtain ⟨r, hr, hmatch⟩ := hrow
  exact ⟨r, List.mem_of_getElem? hr, hmatch⟩

/-- Every row fixes the whole opcode, and fixes bits of the argument at zero only. -/
theorem fields_of_row : ∀ r ∈ opcodeTable, opcodeOf r.mask = BitVec.allOnes 8 ∧ argOf r.pattern = 0 := by decide

/-- A word of a row has the row's opcode, and zeros in its argument where the row's mask has ones. -/
theorem fields_of_matches {r : OpcodeRow} (hr : r ∈ opcodeTable) {w : CommandWord} (h : r.matches w = true) :
    opcodeOf w = opcodeOf r.pattern ∧ argOf w &&& argOf r.mask = 0 := by
  obtain ⟨hmask, hpattern⟩ := fields_of_row r hr
  have hw : w &&& r.mask = r.pattern := by simpa [OpcodeRow.matches] using h
  have hopc : opcodeOf w &&& opcodeOf r.mask = opcodeOf r.pattern := by
    rw [← hw, opcodeOf, opcodeOf, opcodeOf, BitVec.extractLsb'_and]
  have harg : argOf w &&& argOf r.mask = argOf r.pattern := by
    rw [← hw, argOf, argOf, argOf, BitVec.extractLsb'_and]
  rw [hmask, BitVec.and_allOnes] at hopc
  exact ⟨hopc, harg.trans hpattern⟩

/-- A field that a mask covers is zero where the masked argument is. -/
theorem extractLsb'_eq_zero_of_mask {arg mask : BitVec 64} {start len : Nat}
    (hmask : mask.extractLsb' start len = BitVec.allOnes len) (h : arg &&& mask = 0) :
    arg.extractLsb' start len = 0 := by
  rw [← BitVec.and_allOnes (x := arg.extractLsb' start len), ← hmask, ← BitVec.extractLsb'_and, h]
  simp

theorem eq_zero_of_mask {arg mask : BitVec 64} (hmask : mask = BitVec.allOnes 64) (h : arg &&& mask = 0) : arg = 0 := by
  rwa [hmask, BitVec.and_allOnes] at h

/-- A word that matches a row is the word of a well-formed command. -/
theorem exists_encode_eq_of_matches {r : OpcodeRow} (hr : r ∈ opcodeTable) {w : CommandWord}
    (h : r.matches w = true) : ∃ i : Instr, i.wellFormed = true ∧ encode i = w := by
  obtain ⟨hopc, hzero⟩ := fields_of_matches hr h
  have hbit : decide (argBit (argOf w) < 32) = true := decide_eq_true (argBit_lt _)
  simp only [opcodeTable, List.mem_cons, List.not_mem_nil, or_false] at hr
  obtain rfl | rfl | rfl | rfl | rfl | rfl | rfl | rfl | rfl | rfl | rfl := hr
  · exact ⟨.cko2 _ _, rfl, word_eq hopc (argP2_fields (extractLsb'_eq_zero_of_mask (by decide) hzero))⟩
  · exact ⟨.cki4 _ _ _ _, rfl, word_eq hopc (argP4_fields (extractLsb'_eq_zero_of_mask (by decide) hzero))⟩
  · exact ⟨.currst, rfl, word_eq hopc (eq_zero_of_mask (by decide) hzero).symm⟩
  · exact ⟨.setout _ _, hbit, word_eq hopc (argB_fields (extractLsb'_eq_zero_of_mask (by decide) hzero)
      (extractLsb'_eq_zero_of_mask (by decide) hzero))⟩
  · exact ⟨.getout _, hbit, word_eq hopc (argB_false_fields (extractLsb'_eq_zero_of_mask (by decide) hzero))⟩
  · exact ⟨.getin _, hbit, word_eq hopc (argB_false_fields (extractLsb'_eq_zero_of_mask (by decide) hzero))⟩
  · exact ⟨.getanalog, rfl, word_eq hopc (eq_zero_of_mask (by decide) hzero).symm⟩
  · exact ⟨.setscale _, rfl, word_eq hopc rfl⟩
  · exact ⟨.txbuild, rfl, word_eq hopc (eq_zero_of_mask (by decide) hzero).symm⟩
  · exact ⟨.rxcheck, rfl, word_eq hopc (eq_zero_of_mask (by decide) hzero).symm⟩
  · exact ⟨.update, rfl, word_eq hopc (eq_zero_of_mask (by decide) hzero).symm⟩

/-- Settles O4: the words of the rows are the words of the well-formed commands, and these are the words that decode
to a command. -/
theorem illegalWordsAreThoseThatMatchNoRow : Obligations.IllegalWordsAreThoseThatMatchNoRow := by
  intro w
  constructor
  · rintro ⟨why, hd⟩ r hr
    rw [Bool.eq_false_iff]
    intro hmatch
    obtain ⟨i, hi, rfl⟩ := exists_encode_eq_of_matches hr hmatch
    rw [decodingAnEncodedCommandGivesItBack i hi] at hd
    cases hd
  · intro h
    cases hd : decode w with
    | illegal why => exact ⟨why, rfl⟩
    | command i =>
      obtain ⟨-, rfl⟩ := encodingADecodedWordGivesItBack w i hd
      obtain ⟨r, hr, hmatch⟩ := encode_matches_row i
      rw [h r hr] at hmatch
      cases hmatch

/-! ### The assembler -/

theorem asmByte_of_le {n : Nat} (h : n ≤ 255) : asmByte n = some (BitVec.ofNat 8 n) := if_pos h

theorem asmBit_of_le {n : Nat} (h : n ≤ 31) : asmBit n = some n := if_pos h

theorem asmV_toNat (v : Bool) : asmV v.toNat = some v := by cases v <;> rfl

theorem asmByte_eq_none_iff (n : Nat) : asmByte n = none ↔ 255 < n := by simp [asmByte]

theorem asmBit_eq_none_iff (n : Nat) : asmBit n = none ↔ 31 < n := by simp [asmBit]

theorem asmV_eq_none_iff (n : Nat) : asmV n = none ↔ 1 < n := by
  simp only [asmV]
  split
  · simp; omega
  · split <;> simp <;> omega

/-- The word of a line as a number, from the value of its command's word. -/
theorem assembleWord_eq_ofNat {line : AsmLine} {i : Instr} {n : Nat} (hi : assemble line = some i)
    (hn : (encode i).toNat = n) : assembleWord line = some (BitVec.ofNat 72 n) := by
  simp [assembleWord, hi, ← hn]

/-- Settles O5: the operands are in range, so the line is its command, and the command's word is its opcode above the
value of its argument. -/
theorem assembledWordsHaveTheirFields : Obligations.AssembledWordsHaveTheirFields := by
  refine ⟨fun p0 p1 h0 h1 => ?_, fun q0 q1 q2 q3 h0 h1 h2 h3 => ?_, rfl, fun bit v hbit hv => ?_, fun bit hbit => ?_,
    fun bit hbit => ?_, rfl, fun x => ?_, rfl, rfl, rfl⟩
  · refine assembleWord_eq_ofNat (i := .cko2 (BitVec.ofNat 8 p0) (BitVec.ofNat 8 p1)) ?_ ?_
    · simp [assemble, asmByte_of_le, h0, h1]
    · simp only [encode, toNat_word, toNat_argP2, BitVec.toNat_ofNat]
      omega
  · refine assembleWord_eq_ofNat
      (i := .cki4 (BitVec.ofNat 8 q0) (BitVec.ofNat 8 q1) (BitVec.ofNat 8 q2) (BitVec.ofNat 8 q3)) ?_ ?_
    · simp [assemble, asmByte_of_le, h0, h1, h2, h3]
    · simp only [encode, toNat_word, toNat_argP4, BitVec.toNat_ofNat]
      omega
  · obtain ⟨b, rfl⟩ : ∃ b : Bool, v = b.toNat := ⟨v == 1, by interval_cases v <;> rfl⟩
    refine assembleWord_eq_ofNat (i := .setout bit b) ?_ ?_
    · simp [assemble, asmBit_of_le hbit, asmV_toNat]
    · simp only [encode, toNat_word, toNat_argB, BitVec.toNat_ofNat]
      omega
  · refine assembleWord_eq_ofNat (i := .getout bit) ?_ ?_
    · simp [assemble, asmBit_of_le hbit]
    · simp only [encode, toNat_word, toNat_argB, BitVec.toNat_ofNat, Bool.toNat_false]
      omega
  · refine assembleWord_eq_ofNat (i := .getin bit) ?_ ?_
    · simp [assemble, asmBit_of_le hbit]
    · simp only [encode, toNat_word, toNat_argB, BitVec.toNat_ofNat, Bool.toNat_false]
      omega
  · exact assembleWord_eq_ofNat (i := .setscale x) rfl (toNat_word 0x21#8 x)

theorem assembleWord_eq_none_iff (line : AsmLine) : assembleWord line = none ↔ assemble line = none :=
  Option.map_eq_none_iff

/-- The last operand that is checked is all that can still be refused. -/
theorem bind_some_eq_none_iff {α β : Type} {o : Option α} {f : α → β} :
    (o >>= fun a => some (f a)) = none ↔ o = none := by
  cases o <;> simp

/-- An operand that is checked is refused, or what follows it is, whichever value the operand has. -/
theorem bind_eq_none_iff_or {α β : Type} {o : Option α} {f : α → Option β} {P : Prop} (hf : ∀ a, f a = none ↔ P) :
    (o >>= f) = none ↔ o = none ∨ P := by
  cases o <;> simp [hf]

/-- Settles O6: a line is refused where one of its operands is. -/
theorem assemblerRefusesOperandsOutsideTheirFields : Obligations.AssemblerRefusesOperandsOutsideTheirFields := by
  simp only [Obligations.AssemblerRefusesOperandsOutsideTheirFields, assembleWord_eq_none_iff, ← asmByte_eq_none_iff,
    ← asmBit_eq_none_iff, ← asmV_eq_none_iff]
  refine ⟨fun p0 p1 => ?_, fun q0 q1 q2 q3 => ?_, fun bit v => ?_, fun bit => ?_, fun bit => ?_⟩
  · exact bind_eq_none_iff_or fun _ => bind_some_eq_none_iff
  · exact bind_eq_none_iff_or fun _ => bind_eq_none_iff_or fun _ => bind_eq_none_iff_or fun _ => bind_some_eq_none_iff
  · exact bind_eq_none_iff_or fun _ => bind_some_eq_none_iff
  · exact bind_some_eq_none_iff
  · exact bind_some_eq_none_iff

/-- Settles O8: both lines are evaluated. -/
theorem lowPassPseudoInstructionsAreSetout : Obligations.LowPassPseudoInstructionsAreSetout :=
  ⟨rfl, rfl, rfl, rfl⟩

/-! ### The illegal word -/

/-- Settles O10: an illegal word's step is a report, which drives the result ports alone, and the runner's advance. -/
theorem illegalWordOnlyReports : Obligations.IllegalWordOnlyReports :=
  ⟨fun _ _ _ hr hw hd => step_illegal hr hw hd, .unassignedOpcode, rfl⟩

end Sys2Proof.Laws
end

section
/-! PROOFS. The cursor update, its sequences and the ChecksumCursor commands (spec 40_checksum.md R80 to R88). -/

namespace Sys2Proof.Laws

open Sys2Proof.Machine

/-! ### One update -/

/-- The whole update as a move of the cursor and a read at its new value. -/
theorem cursorNext_eq (t : Memory) (c : Byte) (p : List Byte) :
    cursorNext t c p = (c + BitVec.ofNat 8 (payloadSum p + 1), t.read (c + BitVec.ofNat 8 (payloadSum p + 1))) := by
  have hfst : (cursorNext t c p).1 = c + BitVec.ofNat 8 (payloadSum p + 1) := cursorNext_fst t c p
  exact Prod.ext hfst (by rw [cursorNext_snd, hfst])

@[simp] theorem payloadSum_nil : payloadSum [] = 0 := rfl

@[simp] theorem payloadSum_cons (b : Byte) (p : List Byte) : payloadSum (b :: p) = b.toNat + payloadSum p := rfl

theorem payloadSum_perm {p p' : List Byte} (h : p.Perm p') : payloadSum p = payloadSum p' := (h.map _).sum_eq

/-- A payload whose sum plus one is a multiple of 256 does not move the cursor. -/
theorem cursorNext_of_no_advance (t : Memory) (c : Byte) {p : List Byte} (h : (payloadSum p + 1) % 256 = 0) :
    cursorNext t c p = (c, t.read c) := by
  have hzero : BitVec.ofNat 8 (payloadSum p + 1) = 0 := BitVec.eq_of_toNat_eq h
  rw [cursorNext_eq, hzero, add_zero]

/-- Each partial sum reduced, from any start, is the exact sum reduced once. -/
theorem foldl_reduced_sum (p : List Byte) (a : Nat) :
    p.foldl (fun acc b => (acc + b.toNat) % 256) a % 256 = (a + payloadSum p) % 256 := by
  induction p generalizing a with
  | nil => rfl
  | cons b p ih =>
    rw [List.foldl_cons, ih, payloadSum_cons]
    omega

/-- Settles O24: each law follows from the update's one equation, and (f) from the reduced sum. -/
theorem cursorUpdateLaws : Obligations.CursorUpdateLaws := by
  intro t c p
  refine ⟨?_, cursorNext_snd t c p, fun p' hp => ?_, fun h => ?_, cursorNext_fst t c p, ?_⟩
  · rw [cursorNext_eq, BitVec.toNat_add, BitVec.toNat_ofNat]
  · rw [cursorNext_eq, cursorNext_eq, payloadSum_perm hp]
  · exact cursorNext_of_no_advance t c (by omega)
  · have hsum := foldl_reduced_sum p 0
    omega

/-! ### A sequence of updates -/

theorem cursorRun_length (t : Memory) (c : Byte) (ps : List (List Byte)) :
    (cursorRun t c ps).length = ps.length := by
  induction ps generalizing c with
  | nil => rfl
  | cons p ps ih => exact congrArg (· + 1) (ih _)

/-- The closed form: each payload up to the `k`-th moves the cursor by its sum plus one. -/
theorem cursorRun_fst (t : Memory) (c : Byte) (ps : List (List Byte)) (k : Nat) (h : k < (cursorRun t c ps).length) :
    (cursorRun t c ps)[k].1 = c + BitVec.ofNat 8 ((ps.take (k + 1)).map fun p => payloadSum p + 1).sum := by
  induction ps generalizing c k with
  | nil => exact absurd h (Nat.not_lt_zero k)
  | cons p ps ih =>
    cases k with
    | zero => simp [cursorRun, cursorNext_eq]
    | succ k =>
      simp only [cursorRun, List.getElem_cons_succ, ih, cursorNext_eq, List.take_succ_cons, List.map_cons,
        List.sum_cons, BitVec.ofNat_add, BitVec.add_assoc]

/-- Every checksum of a sequence is the table's entry at the cursor value it comes with. -/
theorem cursorRun_snd (t : Memory) (c : Byte) (ps : List (List Byte)) :
    ∀ r ∈ cursorRun t c ps, r.2 = t.read r.1 := by
  induction ps generalizing c with
  | nil => exact List.forall_mem_nil _
  | cons p ps ih => exact List.forall_mem_cons.2 ⟨cursorNext_snd t c p, ih _⟩

/-- Settles O25: the closed form as a number; an all-zero payload advances the cursor by one. -/
theorem cursorClosedForm : Obligations.CursorClosedForm := by
  refine ⟨fun t c ps k h => ⟨?_, cursorRun_snd t c ps _ (List.getElem_mem h)⟩, cursorRun_length, fun t n h => ?_⟩
  · rw [cursorRun_fst, BitVec.toNat_add, BitVec.toNat_ofNat, Nat.add_mod_mod]
  · rw [cursorRun_fst, BitVec.toNat_add, BitVec.toNat_ofNat, Nat.add_mod_mod]
    simp

/-- Tables that read alike give the same sequence. -/
theorem cursorRun_congr {t u : Memory} (h : ∀ i, t.read i = u.read i) (c : Byte) (ps : List (List Byte)) :
    cursorRun t c ps = cursorRun u c ps := by
  induction ps generalizing c with
  | nil => rfl
  | cons p ps ih => rw [cursorRun, cursorRun, cursorNext_congr h, ih]

/-- Settles O26: by the closed form both sides add the same sum to their starts, which lie the skipped advance apart. -/
theorem mirroredCursorsAgreeAndASkippedUpdateStaysApart :
    Obligations.MirroredCursorsAgreeAndASkippedUpdateStaysApart := by
  refine ⟨fun t u c ps h => cursorRun_congr h c ps, fun t c p ps k h h' => ?_, fun t c p ps h => ?_⟩
  · rw [cursorRun_fst, cursorRun_fst, cursorNext_eq, add_sub_add_right_eq_sub, add_sub_cancel_left]
  · rw [cursorNext_of_no_advance t c h]

/-! ### The commands -/

/-- Settles O27: the command's record update with the cursor after two bytes. -/
theorem cko2AdvancesTheOutboundCursor : Obligations.Cko2AdvancesTheOutboundCursor := by
  intro p0 p1 s
  rw [exec_cko2, cursorNext_snd, cursorNext_two, ← BitVec.add_assoc p0]
  rfl

/-- Settles O28: the command's record update with the cursor after four bytes. -/
theorem cki4AdvancesTheInboundCursor : Obligations.Cki4AdvancesTheInboundCursor := by
  intro q0 q1 q2 q3 s
  have hsum : q3 + (q2 + (q1 + (q0 + 1))) = q3 + q2 + q1 + q0 + 1 := by simp only [BitVec.add_assoc]
  rw [exec_cki4, cursorNext_snd, cursorNext_four, hsum]
  rfl

/-- Settles O29: the command's record update written out. -/
theorem currstSetsBothCursorsToOne : Obligations.CurrstSetsBothCursorsToOne := exec_currst

end Sys2Proof.Laws
end

section
/-! PROOFS. The single bits of `OUTPUTS` and `INPUTS` (spec 41_io_registers.md R100 to R104, R109). -/

namespace Sys2Proof.Laws

open Sys2Proof.Machine

/-! ### One bit of a register -/

/-- The written bit holds the value, and every other bit of `OUTPUTS` is kept (R101). -/
theorem getLsbD_writeBit (outputs : BitVec 16) (bit : Nat) (v : Bool) {j : Nat} (hj : j < 16) :
    (writeBit outputs bit v).getLsbD j = if j = bit then v else outputs.getLsbD j := by
  have mask : (1#16 <<< bit).getLsbD j = decide (j = bit) := by
    rw [BitVec.getLsbD_shiftLeft, BitVec.getLsbD_one, Bool.eq_iff_iff]
    simp only [Bool.and_eq_true, Bool.not_eq_true', decide_eq_true_eq, decide_eq_false_iff_not]
    omega
  unfold writeBit
  cases v with
  | false =>
    rw [if_neg Bool.false_ne_true, BitVec.getLsbD_and, BitVec.getLsbD_not, mask]
    by_cases h : j = bit <;> simp [h, hj]
  | true =>
    rw [if_pos rfl, BitVec.getLsbD_or, mask]
    by_cases h : j = bit <;> simp [h]

theorem readBit_eq_ite {w : Nat} (register : BitVec w) (bit : Nat) :
    readBit register bit = if register.getLsbD bit then 1 else 0 := by
  unfold readBit
  cases register.getLsbD bit <;> rfl

/-! ### The commands below the register's width, and from it on -/

theorem exec_setout_of_lt {bit : Nat} (h : bit < 16) (v : Bool) (s : State) :
    exec (.setout bit v) s = .next ((s.setOutputs (writeBit s.outputs bit v)).report .ok 0) := by
  rw [exec_setout, if_neg (not_le.2 h)]

theorem exec_setout_of_le {bit : Nat} (h : 16 ≤ bit) (v : Bool) (s : State) :
    exec (.setout bit v) s = .next (s.report .bitRange (BitVec.ofNat 64 bit)) := by
  rw [exec_setout, if_pos h]

theorem exec_getout_of_lt {bit : Nat} (h : bit < 16) (s : State) :
    exec (.getout bit) s = .next (s.report .ok (if s.outputs.getLsbD bit then 1 else 0)) := by
  rw [exec_getout, if_neg (not_le.2 h), readBit_eq_ite]

theorem exec_getout_of_le {bit : Nat} (h : 16 ≤ bit) (s : State) :
    exec (.getout bit) s = .next (s.report .bitRange (BitVec.ofNat 64 bit)) := by
  rw [exec_getout, if_pos h]

theorem exec_getin_of_lt {bit : Nat} (h : bit < 32) (s : State) :
    exec (.getin bit) s = .next (s.report .ok (if s.inputs.getLsbD bit then 1 else 0)) := by
  rw [exec_getin, if_neg (not_le.2 h), readBit_eq_ite]

theorem exec_getin_of_le {bit : Nat} (h : 32 ≤ bit) (s : State) :
    exec (.getin bit) s = .next (s.report .bitRange (BitVec.ofNat 64 bit)) := by
  rw [exec_getin, if_pos h]

/-- Settles O30: the written register bit by bit, and from index 16 on a report alone. -/
theorem setoutWritesOneBit : Obligations.SetoutWritesOneBit :=
  fun bit v s =>
    ⟨fun h => ⟨writeBit s.outputs bit v, fun _ hj => getLsbD_writeBit s.outputs bit v hj, exec_setout_of_lt h v s⟩,
      fun h => exec_setout_of_le h v s⟩

/-- Settles O31: on each side of the register's width the command is a report. -/
theorem getoutTestsOneBit : Obligations.GetoutTestsOneBit :=
  fun _ s => ⟨fun h => exec_getout_of_lt h s, fun h => exec_getout_of_le h s⟩

/-- Settles O32: well-formedness is the range check that R100 makes for the 32 bits of `INPUTS`. -/
theorem getinTestsOneBit : Obligations.GetinTestsOneBit :=
  fun _ s hwf => exec_getin_of_lt (of_decide_eq_true hwf) s

/-- Settles O33: each of the three commands reports BIT_RANGE and does nothing else. -/
theorem outOfRangeBitIndexIsRejected : Obligations.OutOfRangeBitIndexIsRejected := by
  intro bit v s i hi
  have rejected : exec i s = .next (s.report .bitRange (BitVec.ofNat 64 bit)) := by
    obtain ⟨rfl, h⟩ | ⟨rfl, h⟩ | ⟨rfl, h⟩ := hi
    · exact exec_setout_of_le h v s
    · exact exec_getout_of_le h s
    · exact exec_getin_of_le h s
  exact ⟨_, rejected, rfl, rfl, report_sameArch s _ _⟩

/-- Settles O34: GETOUT reads the bit that `getLsbD_writeBit` gives, and itself only reports. -/
theorem getoutReturnsWhatSetoutSet : Obligations.GetoutReturnsWhatSetoutSet := by
  intro bit v s h
  refine ⟨_, _, exec_setout_of_lt h v s, exec_getout_of_lt h _, rfl, ?_, fun j hj hne => ?_⟩
  · simp [getLsbD_writeBit s.outputs bit v h]
  · simp [getLsbD_writeBit s.outputs bit v hj, hne]

/-- Bit 0 of the frame's second byte is the low-pass-filter flag (R104, R130). -/
theorem getLsbD_outboundPacket_lowPass (t : Memory) (idx : Byte) (outputs : BitVec 16) :
    (outboundPacket t idx outputs).2.getLsbD 8 = lowPassFilter outputs := by
  rw [outboundPacket_snd, getLsbD_txFrame]
  simp [outputsHigh, lowPassFilter]

/-- Settles O35: SETOUT writes the flag and TXBUILD sends it. -/
theorem lowPassFlagReachesTheFrame : Obligations.LowPassFlagReachesTheFrame := by
  intro v s
  have flag : lowPassFilter (writeBit s.outputs 8 v) = v := getLsbD_writeBit s.outputs 8 v (by decide)
  exact ⟨_, _, exec_setout_of_lt (by decide) v s, exec_txbuild _, flag, rfl,
    (getLsbD_outboundPacket_lowPass ..).trans flag⟩

end Sys2Proof.Laws
end

section
/-! SUPPORT. The scaling function of GETANALOG by the kind of its quotient, and the result's pattern (spec
41_io_registers.md R105 to R107). -/

namespace Sys2Proof.Laws

open Sys2Proof.Machine

/-! ### Roundings that do not overflow, and exact products -/

theorem roundF64_ne_nan (neg : Bool) (num den : Nat) (exp : Int) : roundF64 neg num den exp ≠ .nan := by
  obtain h | ⟨_, _, h⟩ := roundF64_cases neg num den exp <;> rw [h] <;> nofun

/-- A value below the overflow threshold is rounded to a finite datum. -/
theorem roundF64_eq_fin_of_lt (neg : Bool) (num : Nat) {den : Nat} (hd : 0 < den) (exp : Int)
    (below : (num : ℚ) / den * 2 ^ exp < 2 ^ 1024 - 2 ^ 970) : ∃ sig e, roundF64 neg num den exp = .fin neg sig e := by
  rcases num.eq_zero_or_pos with rfl | hn
  · exact ⟨_, _, roundF64_zero ..⟩
  · have fits := mt (isRounding_roundedSig hn hd exp).overflow_iff.1 (by
      rw [mul_assoc, ← zpow_add₀ two_ne_zero, sub_add_cancel]
      exact not_le.2 below)
    exact ⟨_, _, by rw [roundF64_of_pos neg hn, if_neg fits]⟩

/-- A value that the format holds is its own rounding. -/
theorem IsRounding.eq_of_exact {x : ℚ} {k m : Nat} {p q : Int} (h : IsRounding x k p) (hm : m < 2 ^ 53)
    (low : -1074 ≤ q) (normal : q = -1074 ∨ 2 ^ 52 ≤ m) (hx : x = m * 2 ^ (q - p)) : k = m ∧ p = q := by
  have hm' : (m : ℚ) < 2 ^ 53 := by exact_mod_cast hm
  have hpq : p = q := by
    rcases lt_trichotomy p q with hlt | heq | hgt
    · have hm52 : (2 : ℚ) ^ 52 ≤ m := by
        have := h.quantum_ge
        exact_mod_cast normal.resolve_left (by omega)
      have twice := two_mul_zpow_le (sub_pos.2 hlt)
      have lt := h.lt
      rw [zpow_zero] at twice
      nlinarith
    · exact heq
    · have hx52 : (2 : ℚ) ^ 52 ≤ x := h.normal.resolve_left (by omega)
      have half := two_mul_zpow_le (sub_neg.2 hgt)
      rw [zpow_zero] at half
      nlinarith
  subst hpq
  have near := h.near
  rw [hx, sub_self, zpow_zero, mul_one] at near
  have close : |(k : Int) - m| < 1 := by
    have : |((k : Int) - m : ℚ)| < 1 := by push_cast; linarith
    exact_mod_cast this
  exact ⟨by have := Int.abs_lt_one_iff.1 close; omega, rfl⟩

/-- A product with a power of two that stays in the format is exact. -/
theorem roundF64_exact (neg : Bool) {m : Nat} {q : Int} (hm : m < 2 ^ 53) (low : -1074 ≤ q) (high : q ≤ 971)
    (normal : q = -1074 ∨ 2 ^ 52 ≤ m) (k : Nat) : roundF64 neg (m * 2 ^ k) 1 (q - k) = .fin neg m q := by
  rcases m.eq_zero_or_pos with rfl | hpos
  · rw [normal.resolve_right (by norm_num), Nat.zero_mul, roundF64_zero]
  · have num_pos : 0 < m * 2 ^ k := by positivity
    have h := isRounding_roundedSig num_pos one_pos (q - k)
    obtain ⟨hsig, hexp⟩ := h.eq_of_exact hm low normal (by
      push_cast
      rw [div_one, mul_assoc, ← zpow_natCast, ← zpow_add₀ two_ne_zero]
      congr 2
      ring)
    rw [roundF64_of_pos neg num_pos, hsig, hexp, if_neg (by omega)]

/-! ### The two operands of the product -/

/-- The sample's datum is positive or a positive zero, in the format's own form, and a zero for the sample 0 alone. -/
theorem u16ToF64_eq_fin (v : BitVec 16) :
    ∃ (m : Nat) (q : Int), u16ToF64 v = .fin false m q ∧ m < 2 ^ 53 ∧ -1074 ≤ q ∧ q ≤ 971 ∧
      (q = -1074 ∨ 2 ^ 52 ≤ m) ∧ (m = 0 ↔ v = 0) := by
  obtain ⟨m, q, hv, hm, low, high, normal, same⟩ := roundF64_nat false (v.isLt.trans (by norm_num : 2 ^ 16 < 2 ^ 53))
  refine ⟨m, q, hv, hm, low, high, normal, ?_⟩
  have zero_iff : (m : ℚ) = 0 ↔ (v.toNat : ℚ) = 0 := by
    rw [← same, mul_eq_zero, or_iff_left (zpow_ne_zero q two_ne_zero)]
  rw [BitVec.toNat_eq]
  exact_mod_cast zero_iff

theorem u16ToF64_analogFull : u16ToF64 Config.analogFull = .fin false 0x1FFE0000000000 (-41) := by decide

/-- A finite scale over 4095 is a finite datum of the scale's sign: it lies far below the overflow threshold. -/
theorem fdiv64_analogFull_finite {scale : BitVec 64} (h : (F64.ofBits scale).isFinite = true) :
    ∃ n f, fdiv64 (F64.ofBits scale) (u16ToF64 Config.analogFull) = .fin (scale.getLsbD 63) n f := by
  obtain ⟨m, e, hs, hm, -, high⟩ := ofBits_finite h
  have quotient : fdiv64 (F64.ofBits scale) (u16ToF64 Config.analogFull) =
      roundF64 (scale.getLsbD 63) m 0x1FFE0000000000 (e - -41) := by
    rw [hs, u16ToF64_analogFull, fdiv64, if_neg (by decide), Bool.bne_false]
  rw [quotient]
  refine roundF64_eq_fin_of_lt _ m (by norm_num) _ ?_
  have hm' : (m : ℚ) < 2 ^ 53 := by exact_mod_cast hm
  have hp : (2 : ℚ) ^ (e - -41) ≤ 2 ^ (41 : Int) * 2 ^ (971 : Int) := by
    rw [← zpow_add₀ two_ne_zero]
    exact zpow_le_zpow_right₀ one_le_two (by omega)
  have pos : (0 : ℚ) < 2 ^ (971 : Int) := by positivity
  rw [overflow_threshold]
  generalize (2 : ℚ) ^ (971 : Int) = p at hp pos ⊢
  calc (m : ℚ) / (0x1FFE0000000000 : Nat) * 2 ^ (e - -41)
      ≤ 2 ^ 53 / (0x1FFE0000000000 : Nat) * (2 ^ (41 : Int) * p) := by gcongr
    _ < (2 ^ 53 - 1 / 2) * p := by norm_num; linarith

/-! ### The product by the kind of the quotient -/

theorem fmul64_sample_nan (v : BitVec 16) : fmul64 (u16ToF64 v) .nan = .nan := by
  obtain ⟨m, q, hv, -⟩ := u16ToF64_eq_fin v
  rw [hv]
  rfl

/-- The sample 0 times an infinity is a NaN, every other sample times it the infinity. -/
theorem fmul64_sample_inf (v : BitVec 16) (neg : Bool) :
    fmul64 (u16ToF64 v) (.inf neg) = if v = 0 then .nan else .inf neg := by
  obtain ⟨m, q, hv, -, -, -, -, zero_iff⟩ := u16ToF64_eq_fin v
  simp only [hv, fmul64, zero_iff, Bool.false_bne]

/-- The sample times a finite quotient is rounded with the quotient's sign, from 0 where one of the two is 0. -/
theorem fmul64_sample_fin (v : BitVec 16) (neg : Bool) (n : Nat) (f : Int) :
    ∃ num exp, fmul64 (u16ToF64 v) (.fin neg n f) = roundF64 neg num 1 exp ∧ (v = 0 ∨ n = 0 → num = 0) := by
  obtain ⟨m, q, hv, -, -, -, -, zero_iff⟩ := u16ToF64_eq_fin v
  refine ⟨m * n, q + f, by rw [hv, fmul64, Bool.false_bne], fun h => ?_⟩
  rwa [Nat.mul_eq_zero, zero_iff]

/-- The sample times 1 is the sample. -/
theorem fmul64_sample_one (v : BitVec 16) : fmul64 (u16ToF64 v) (.fin false (2 ^ 52) (-52)) = u16ToF64 v := by
  obtain ⟨m, q, hv, hm, low, high, normal, -⟩ := u16ToF64_eq_fin v
  rw [hv]
  exact roundF64_exact false hm low high normal 52

/-! ### The scaled sample by the kind of the scale -/

theorem analogScaleF64_nan (v : BitVec 16) : analogScaleF64 v .nan = .nan := fmul64_sample_nan v

theorem analogScaleF64_inf (v : BitVec 16) (neg : Bool) :
    analogScaleF64 v (.inf neg) = if v = 0 then .nan else .inf neg := by
  have quotient : fdiv64 (.inf neg) (u16ToF64 Config.analogFull) = .inf neg := by
    rw [u16ToF64_analogFull, fdiv64, Bool.bne_false]
  rw [analogScaleF64, quotient, fmul64_sample_inf]

/-- A finite scale gives a rounded number of the scale's sign, and the zero of that sign for the sample 0. -/
theorem analogScaleF64_finite (v : BitVec 16) {scale : BitVec 64} (h : (F64.ofBits scale).isFinite = true) :
    ∃ num exp, analogScaleF64 v (F64.ofBits scale) = roundF64 (scale.getLsbD 63) num 1 exp ∧ (v = 0 → num = 0) := by
  obtain ⟨n, f, quotient⟩ := fdiv64_analogFull_finite h
  obtain ⟨num, exp, product, zero⟩ := fmul64_sample_fin v (scale.getLsbD 63) n f
  exact ⟨num, exp, by rw [analogScaleF64, quotient, product], fun hv => zero (.inl hv)⟩

/-- A zero scale gives the zero of its sign. -/
theorem analogScaleF64_zero (v : BitVec 16) (neg : Bool) (e : Int) :
    analogScaleF64 v (.fin neg 0 e) = .fin neg 0 (-1074) := by
  have quotient : fdiv64 (.fin neg 0 e) (u16ToF64 Config.analogFull) = .fin neg 0 (-1074) := by
    rw [u16ToF64_analogFull]
    exact (roundF64_zero (neg != false) 0x1FFE0000000000 (e - -41)).trans (by rw [Bool.bne_false])
  obtain ⟨num, exp, product, zero⟩ := fmul64_sample_fin v neg 0 (-1074)
  rw [analogScaleF64, quotient, product, zero (.inr rfl), roundF64_zero]

/-- With the scale 4095.0 the quotient is 1. -/
theorem analogScaleF64_full (v : BitVec 16) : analogScaleF64 v (F64.ofBits 0x40AFFE0000000000) = u16ToF64 v := by
  have quotient : fdiv64 (F64.ofBits 0x40AFFE0000000000) (u16ToF64 Config.analogFull) = .fin false (2 ^ 52) (-52) := by
    decide
  rw [analogScaleF64, quotient, fmul64_sample_one]

/-! ### The result's pattern -/

/-- The sample is the upper half of `INPUTS` (R105). -/
theorem analogSample_eq (inputs : BitVec 32) : analogSample inputs = inputs.extractLsb' 16 16 := by
  apply BitVec.eq_of_getLsbD_eq
  intro i hi
  simp only [analogSample, BitVec.getLsbD_append, BitVec.getLsbD_extractLsb']
  by_cases h : i < 8
  · simp [h, hi]
  · simp [h, hi, show i - 8 < 8 by omega, show 24 + (i - 8) = 16 + i by omega]

/-- The pattern with which GETANALOG answers a NaN stands for a NaN (R107, log 3). -/
theorem ofBits_nanPattern (neg : Bool) (fraction : Fin 4503599627370495) :
    F64.ofBits (nanPattern neg fraction) = .nan := by
  have hf := fraction.isLt
  have pattern : nanPattern neg fraction =
      BitVec.ofBool neg ++ BitVec.ofNat 63 (2047 * 2 ^ 52 + (fraction.val + 1)) := by
    refine congrArg (BitVec.ofBool neg ++ ·) (BitVec.eq_of_toNat_eq ?_)
    rw [toNat_append_add, BitVec.toNat_ofNat, BitVec.toNat_ofNat, BitVec.toNat_ofNat]
    omega
  obtain ⟨-, exponent, fraction_eq⟩ := fields_of_pattern neg (2047 * 2 ^ 52 + (fraction.val + 1))
  unfold F64.ofBits
  simp only [pattern, exponent, fraction_eq]
  rw [if_pos (by omega), if_neg (by omega)]

theorem bits64_eq_of_ne_nan {x : F64} (h : x ≠ .nan) (nanBits nanBits' : BitVec 64) :
    bits64 nanBits x = bits64 nanBits' x := by
  cases x with
  | nan => exact absurd rfl h
  | inf neg => rfl
  | fin neg sig exp => rfl

/-- A result that is no NaN has its datum's one pattern. -/
theorem analogResult_eq {inputs : BitVec 32} {scale : BitVec 64} {x : F64}
    (h : analogScaleF64 (inputs.extractLsb' 16 16) (F64.ofBits scale) = x) (hx : x ≠ .nan) (nanBits : BitVec 64) :
    analogResult inputs scale = bits64 nanBits x := by
  unfold analogResult
  rw [analogSample_eq]
  simp only [h]
  exact bits64_eq_of_ne_nan hx _ _

theorem analogResult_of_nan {inputs : BitVec 32} {scale : BitVec 64}
    (h : analogScaleF64 (inputs.extractLsb' 16 16) (F64.ofBits scale) = .nan) :
    F64.ofBits (analogResult inputs scale) = .nan := by
  unfold analogResult
  rw [analogSample_eq]
  simp only [h]
  exact ofBits_nanPattern _ _

/-- The result reads the sample's half of `INPUTS` alone. -/
theorem analogResult_congr {inputs inputs' : BitVec 32} (h : inputs'.extractLsb' 16 16 = inputs.extractLsb' 16 16)
    (scale : BitVec 64) : analogResult inputs' scale = analogResult inputs scale := by
  unfold analogResult
  rw [analogSample_eq, analogSample_eq, h]

end Sys2Proof.Laws
end

section
/-! PROOFS. The analog commands GETANALOG and SETSCALE (spec 41_io_registers.md R107, R108, R110). -/

namespace Sys2Proof.Laws

open Sys2Proof.Machine

/-- Settles O36: the command is a report of the result, whose pattern is the scaled sample's or any NaN's. -/
theorem getanalogReturnsTheScaledSample : Obligations.GetanalogReturnsTheScaledSample :=
  fun s => ⟨analogResult s.inputs s.analogScale, exec_getanalog s, fun nanBits h => analogResult_eq rfl h nanBits,
    fun h => analogResult_of_nan h⟩

/-- Settles O40: the scaled sample by the kind of the scale; a finite scale's quotient is finite, so that the product
is a rounded number, never a NaN. -/
theorem analogCornerCases : Obligations.AnalogCornerCases := by
  intro inputs
  have zero : ∀ neg, analogScaleF64 (inputs.extractLsb' 16 16) (.fin neg 0 (-1074)) = .fin neg 0 (-1074) :=
    fun neg => analogScaleF64_zero _ neg _
  refine ⟨?_, ?_, fun hv => ⟨?_, ?_⟩, fun hv => ⟨?_, ?_⟩, fun scale hs => ?_, fun scale hs hneg hv => ?_,
    fun scale hs => ?_⟩
  · exact Eq.trans (analogResult_eq (zero false) (by nofun) 0) (by decide)
  · exact Eq.trans (analogResult_eq (zero true) (by nofun) 0) (by decide)
  · exact Eq.trans (analogResult_eq ((analogScaleF64_inf _ false).trans (if_neg hv)) (by nofun) 0) (by decide)
  · exact Eq.trans (analogResult_eq ((analogScaleF64_inf _ true).trans (if_neg hv)) (by nofun) 0) (by decide)
  · exact analogResult_of_nan ((analogScaleF64_inf _ false).trans (if_pos hv))
  · exact analogResult_of_nan ((analogScaleF64_inf _ true).trans (if_pos hv))
  · exact analogResult_of_nan (by rw [hs, analogScaleF64_nan])
  · obtain ⟨num, exp, scaled, zero⟩ := analogScaleF64_finite (inputs.extractLsb' 16 16) hs
    rw [zero hv, roundF64_zero, hneg] at scaled
    exact Eq.trans (analogResult_eq scaled (by nofun) 0) (by decide)
  · obtain ⟨num, exp, scaled, -⟩ := analogScaleF64_finite (inputs.extractLsb' 16 16) hs
    rw [analogResult_eq scaled (roundF64_ne_nan _ _ _ _) 0, sign_roundF64]

/-- Settles O41: at full scale the scaled sample is the sample, which `u16_to_f64` gives exactly (O39). -/
theorem analogExtractionIsExactAtFullScale : Obligations.AnalogExtractionIsExactAtFullScale := by
  refine ⟨fun s hs => ?_, fun s inputs h => ⟨_, _, exec_getanalog s, exec_getanalog _, analogResult_congr h _⟩⟩
  have result : ∀ nanBits,
      analogResult s.inputs s.analogScale = bits64 nanBits (u16ToF64 (s.inputs.extractLsb' 16 16)) := by
    intro nanBits
    rw [hs]
    exact analogResult_eq (analogScaleF64_full _) (roundF64_ne_nan _ _ _ _) nanBits
  obtain ⟨pattern, finite, value⟩ := integerToFloatIsExact (s.inputs.extractLsb' 16 16) 0
  have sample : (s.inputs.extractLsb' 16 16).toNat = s.inputs.toNat / 2 ^ 16 := by
    have := s.inputs.isLt
    rw [BitVec.extractLsb'_toNat, Nat.shiftRight_eq_div_pow]
    omega
  refine ⟨_, exec_getanalog s, result, ?_, ?_⟩ <;> rw [report_rdata, result 0, pattern]
  · exact finite
  · rw [value, sample]

/-- Settles O42: the command's record update written out. -/
theorem setscaleStoresThePattern : Obligations.SetscaleStoresThePattern := fun f64 s => exec_setscale s f64

end Sys2Proof.Laws
end

section
/-! PROOFS. The Session commands (spec 42_exchange.md R130 to R143): the two halves of an exchange as moves of the
cursors, and TXBUILD, RXCHECK and UPDATE made of them. -/

namespace Sys2Proof.Laws

open Sys2Proof.Machine

/-! ### The outbound half -/

/-- The new outbound cursor and the frame, from the two bytes of `OUTPUTS` (R130, R132). -/
theorem outboundPacket_eq (t : Memory) (idx : Byte) (o : BitVec 16) :
    outboundPacket t idx o =
      (idx + (o.extractLsb' 0 8 + o.extractLsb' 8 8 + 1),
        t.read (idx + (o.extractLsb' 0 8 + o.extractLsb' 8 8 + 1)) ++ (o.extractLsb' 8 8 ++ o.extractLsb' 0 8)) := by
  have hcursor : (outboundPacket t idx o).1 = idx + (o.extractLsb' 0 8 + o.extractLsb' 8 8 + 1) := by
    rw [outboundPacket_fst, cursorNext_two, ← BitVec.add_assoc (outputsLow o)]
    rfl
  exact Prod.ext hcursor (by rw [outboundPacket_snd, hcursor]; rfl)

/-- TXBUILD and UPDATE emit the outbound packet and leave the cursor that its checksum was read at. -/
theorem exec_emits {i : Instr} (hi : i = .txbuild ∨ i = .update) (s : State) :
    ∃ t, exec i s = .next t ∧ t.table = s.table ∧ t.idxOut = (outboundPacket s.table s.idxOut s.outputs).1 ∧
      t.txData = (outboundPacket s.table s.idxOut s.outputs).2 := by
  obtain rfl | rfl := hi
  · exact ⟨_, exec_txbuild s, rfl, rfl, rfl⟩
  · exact ⟨_, exec_update s, rfl, rfl, rfl⟩

/-- Settles O43: the command's record update with the packet written out. -/
theorem txbuildEmitsTheFrame : Obligations.TxbuildEmitsTheFrame := by
  intro s
  rw [exec_txbuild, outboundPacket_eq]
  rfl

/-! ### The inbound half -/

/-- The inbound cursor's update by the four input bytes, most significant first (R131, R133). -/
theorem cursorNext_inbound (t : Memory) (idx b0 b1 b2 b3 : Byte) :
    cursorNext t idx [b3, b2, b1, b0] = (idx + (b3 + b2 + b1 + b0 + 1), t.read (idx + (b3 + b2 + b1 + b0 + 1))) := by
  have hcursor : (cursorNext t idx [b3, b2, b1, b0]).1 = idx + (b3 + b2 + b1 + b0 + 1) := by
    rw [cursorNext_four]
    simp only [BitVec.add_assoc]
  exact Prod.ext hcursor (by rw [cursorNext_snd, hcursor])

/-- An input word as the disjunction of its shifted bytes (R135). -/
theorem inputWord_eq_or (b0 b1 b2 b3 : Byte) :
    inputWord b0 b1 b2 b3 =
      (b3.setWidth 32 <<< 24) ||| (b2.setWidth 32 <<< 16) ||| (b1.setWidth 32 <<< 8) ||| b0.setWidth 32 := by
  apply BitVec.eq_of_getLsbD_eq
  intro i hi
  rw [getLsbD_inputWord]
  simp only [BitVec.getLsbD_or, BitVec.getLsbD_shiftLeft, BitVec.getLsbD_setWidth]
  grind

theorem zext64_inputWord (b0 b1 b2 b3 : Byte) :
    zext64 (inputWord b0 b1 b2 b3) =
      BitVec.ofNat 64 (b3.toNat * 2 ^ 24 + b2.toNat * 2 ^ 16 + b1.toNat * 2 ^ 8 + b0.toNat) := by
  rw [← toNat_inputWord]
  exact (BitVec.ofNat_toNat ..).symm

theorem mismatchData_eq (expected received : Byte) :
    mismatchData expected received = BitVec.ofNat 64 (expected.toNat * 2 ^ 8 + received.toNat) := by
  rw [← toNat_append_add]
  exact (BitVec.ofNat_toNat ..).symm

/-- Settles O44: one clause per kind of event; a length below `2^64` is reported whole. -/
theorem receiveStepClassifiesTheEvent : Obligations.ReceiveStepClassifiesTheEvent := by
  intro t idx inp
  refine ⟨rfl, rfl, fun d hd => ?_, fun b0 b1 b2 b3 => ?_, fun b0 b1 b2 b3 c hc => ?_⟩
  · rw [rxStep_malformed t idx inp hd]
    exact ⟨rfl, fun hlt => Nat.mod_eq_of_lt hlt⟩
  · rw [rxStep_five, cursorNext_inbound, if_pos rfl, zext64_inputWord, inputWord_eq_or]
  · rw [rxStep_five, cursorNext_inbound, if_neg hc, mismatchData_eq]

/-- A 5-byte datagram advances the cursor, whether or not it validates (R136). -/
theorem rxStep_five_idx (t : Memory) (idx : Byte) (inp : BitVec 32) (b0 b1 b2 b3 c : Byte) :
    (rxStep t idx inp (.datagram [b0, b1, b2, b3, c])).idx = idx + (b3 + b2 + b1 + b0 + 1) := by
  rw [rxStep_five, cursorNext_inbound]
  split <;> rfl

/-- Every other event leaves the cursor where it is (R136). -/
theorem rxStep_idx_of_not_five (t : Memory) (idx : Byte) (inp : BitVec 32) {ev : RxEvent}
    (h : ∀ d : List Byte, ev = .datagram d → d.length ≠ 5) : (rxStep t idx inp ev).idx = idx := by
  cases ev with
  | timeout | transportError => rfl
  | datagram d => rw [rxStep_malformed t idx inp (h d rfl)]

/-- The second state has received the transport's event in the first: the inbound half that RXCHECK and UPDATE share
(R138, R140). -/
structure Receives (s t : State) : Prop where
  idxIn : t.idxIn = (rxStep s.table s.idxIn s.inputs s.rxEvent).idx
  inputs : t.inputs = (rxStep s.table s.idxIn s.inputs s.rxEvent).inputs
  status : t.status = (rxStep s.table s.idxIn s.inputs s.rxEvent).status
  rxAnswers : t.rxAnswers = s.rxAnswers.tail
  table : t.table = s.table

theorem Receives.advance {s t : State} (h : Receives s t) : Receives s t.advance :=
  ⟨h.idxIn, h.inputs, h.status, h.rxAnswers, h.table⟩

theorem exec_receives {i : Instr} (hi : i = .rxcheck ∨ i = .update) (s : State) :
    ∃ t, exec i s = .next t ∧ Receives s t := by
  obtain rfl | rfl := hi
  · exact ⟨_, exec_rxcheck s, rfl, rfl, rfl, rfl, rfl⟩
  · exact ⟨_, exec_update s, rfl, rfl, rfl, rfl, rfl⟩

/-- Settles O45: the command's record update, field by field. -/
theorem rxcheckAppliesTheReceiveStep : Obligations.RxcheckAppliesTheReceiveStep :=
  fun s => ⟨_, exec_rxcheck s, rfl, rfl, rfl, rfl, rfl, rfl, rfl, rfl, rfl, rfl, rfl⟩

/-- Settles O49: both commands take the receive step's cursor. -/
theorem inboundCursorAdvancesOnFiveByteDatagrams : Obligations.InboundCursorAdvancesOnFiveByteDatagrams := by
  intro s i hi
  obtain ⟨t, he, received⟩ := exec_receives hi s
  refine ⟨t, he, fun b0 b1 b2 b3 c hev => ?_, fun hev => ?_⟩
  · rw [received.idxIn, hev, rxStep_five_idx]
  · rw [received.idxIn, rxStep_idx_of_not_five _ _ _ hev]

/-! ### The two halves in one command -/

theorem senderr_recordSend_iff (s : State) (o : SendOutcome) :
    (s.recordSend o).senderr = true ↔ o = .transportError := by
  rw [recordSend_senderr, beq_iff_eq]

/-- Settles O46: the command's record update with the packet written out, field by field. -/
theorem updatePerformsOneExchange : Obligations.UpdatePerformsOneExchange := by
  intro s
  refine ⟨_, exec_update s, ?_⟩
  rw [outboundPacket_eq]
  exact ⟨rfl, rfl, rfl, senderr_recordSend_iff _ _, rfl, rfl, rfl, rfl, rfl, rfl, rfl⟩

/-- Of the transport, a command other than UPDATE makes no send, so that it clears `SENDERR` (R142), and takes a receive
event only where it is RXCHECK (R34). -/
theorem exec_transport_of_ne_update {i : Instr} (hi : i ≠ .update) {s t : State} (h : exec i s = .next t) :
    t.senderr = false ∧ (i ≠ .rxcheck → t.rxAnswers = s.rxAnswers) := by
  cases i with
  | update => exact absurd rfl hi
  | rxcheck => cases h; exact ⟨rfl, fun hrx => absurd rfl hrx⟩
  | setout bit v => rw [exec_setout] at h; cases h; split <;> exact ⟨rfl, fun _ => rfl⟩
  | getout bit => rw [exec_getout] at h; cases h; split <;> exact ⟨rfl, fun _ => rfl⟩
  | getin bit => rw [exec_getin] at h; cases h; split <;> exact ⟨rfl, fun _ => rfl⟩
  | _ => cases h; exact ⟨rfl, fun _ => rfl⟩

/-- Settles O50: UPDATE records its send's outcome and advances the cursor whatever it is; no other command makes a
send. -/
theorem senderrRecordsAFailedSendOfUpdate : Obligations.SenderrRecordsAFailedSendOfUpdate := by
  intro s i
  by_cases hi : i = .update
  · subst hi
    obtain ⟨t, he, hidx, -, -, hsend, -⟩ := updatePerformsOneExchange s
    exact ⟨t, he, by rw [hsend, eq_self, true_and], fun _ => hidx⟩
  · obtain ⟨t, he⟩ := exec_next i s
    obtain ⟨hsend, -⟩ := exec_transport_of_ne_update hi he
    exact ⟨t, he, by simp [hsend, hi], fun h => absurd h hi⟩

/-- Settles O51: the receive half is computed without the send's answers, the outbound half without the receive's. -/
theorem halvesOfUpdateAreIndependent : Obligations.HalvesOfUpdateAreIndependent :=
  fun s _ _ _ _ => ⟨_, _, _, exec_update s, exec_update _, exec_update _, rfl, rfl, rfl, rfl, rfl⟩

end Sys2Proof.Laws
end

section
/-! PROOFS. The round trip with the reference peer (spec 42_exchange.md R145, 70_reset_and_hazards.md R186, R188): one
packet, one datagram, one step of a session, and a run of receives with timeouts in between. -/

namespace Sys2Proof.Laws

open Sys2Proof.Machine

/-! ### One outbound packet -/

/-- Settles O58: the frame carries the two bytes of `OUTPUTS` and the checksum, and the peer's update on them is the
block's own. -/
theorem peerComputesTheChecksumOfEveryPacket : Obligations.PeerComputesTheChecksumOfEveryPacket := by
  intro s p i hp hi
  obtain ⟨htable, hcursor⟩ := hp
  obtain ⟨t, he, hsame, hidx, hdata⟩ := exec_emits hi s
  have mirrored : p.nextRx (outputsLow s.outputs) (outputsHigh s.outputs) =
      cursorNext s.table s.idxOut [outputsLow s.outputs, outputsHigh s.outputs] := by
    rw [Peer.nextRx, hcursor, cursorNext_congr htable]
  obtain ⟨hlow, hhigh, hck⟩ := txFrame_bytes (outputsLow s.outputs) (outputsHigh s.outputs)
    (s.table.read (outboundPacket s.table s.idxOut s.outputs).1)
  rw [outboundPacket_snd] at hdata
  refine ⟨t, he, ?_, ?_, ?_⟩
  · rw [hdata, hlow, hhigh, hck, mirrored, cursorNext_snd, outboundPacket_fst]
  · rw [hsame]
    exact htable
  · rw [hdata, hlow, hhigh, Peer.afterPacket, mirrored, hidx, outboundPacket_fst]

/-! ### One datagram -/

/-- At the peer's cursor its datagram validates and carries the input word (R133, R145). -/
theorem rxStep_answer {t : Memory} {p : Peer} (h : ∀ i, p.table.read i = t.read i) (inp x : BitVec 32) :
    rxStep t p.devTx inp (p.answer x) = ⟨(p.afterAnswer x).devTx, x, .ok, zext64 x⟩ := by
  have hnext : cursorNext t p.devTx [inputByte x 3, inputByte x 2, inputByte x 1, inputByte x 0] = p.nextTx x :=
    (cursorNext_congr h _ _).symm
  rw [Peer.answer, rxStep_five, hnext, if_pos rfl, inputWord_bytes]
  rfl

/-- Receiving the peer's datagram in step validates it, stores its word and keeps the pair in step. -/
theorem Receives.answer {s t : State} (h : Receives s t) {p : Peer} (hp : s.InboundInStep p) {x : BitVec 32}
    (hev : s.rxEvent = p.answer x) : t.status = .ok ∧ t.inputs = x ∧ t.InboundInStep (p.afterAnswer x) := by
  obtain ⟨htable, hcursor⟩ := hp
  have hstep : rxStep s.table s.idxIn s.inputs s.rxEvent = ⟨(p.afterAnswer x).devTx, x, .ok, zext64 x⟩ := by
    rw [hev, ← hcursor, rxStep_answer htable]
  refine ⟨by rw [h.status, hstep], by rw [h.inputs, hstep], ?_, by rw [h.idxIn, hstep]⟩
  rw [h.table]
  exact htable

/-- Receiving a timeout keeps the pair in step. -/
theorem Receives.timeout {s t : State} (h : Receives s t) {p : Peer} (hp : s.InboundInStep p)
    (hev : s.rxEvent = .timeout) : t.status = .timeout ∧ t.InboundInStep p := by
  obtain ⟨htable, hcursor⟩ := hp
  have hstep : rxStep s.table s.idxIn s.inputs s.rxEvent = ⟨s.idxIn, s.inputs, .timeout, 0⟩ := by
    rw [hev, rxStep_timeout]
  refine ⟨by rw [h.status, hstep], ?_, by rw [h.idxIn, hstep, hcursor]⟩
  rw [h.table]
  exact htable

/-! ### One step of a session -/

/-- A step that runs a receiving command receives, and goes on to the next word. -/
theorem step_receives {s : State} {w : CommandWord} {i : Instr} (hi : i = .rxcheck ∨ i = .update)
    (hr : s.resetDue = false) (hw : s.program[s.pc]? = some w) (hd : decode w = .command i) :
    ∃ t, step s = .next t ∧ Receives s t ∧ t.program = s.program ∧ t.pc = s.pc + 1 ∧ t.resetAt = s.resetAt := by
  obtain ⟨u, he, received⟩ := exec_receives hi s
  obtain ⟨-, hprogram, hpc, hreset⟩ := exec_frame he
  exact ⟨u.advance, step_command hr hw hd he, received.advance, hprogram, congrArg (· + 1) hpc, hreset⟩

/-- A command other than the four writers of `IDX_IN` leaves `INPUTS` and the inbound pair as they are (R22, R26). -/
theorem exec_keeps_inbound {i : Instr} (hrx : i ≠ .rxcheck) (hup : i ≠ .update)
    (hcki : ∀ q0 q1 q2 q3, i ≠ .cki4 q0 q1 q2 q3) (hcur : i ≠ .currst) {s t : State} (h : exec i s = .next t)
    {p : Peer} (hp : s.InboundInStep p) : t.inputs = s.inputs ∧ t.InboundInStep p := by
  obtain ⟨-, hidx, -, hinputs, -, htable, -⟩ := stateChangesOnlyByItsWriters s t i h
  have same_idx : t.idxIn = s.idxIn := by
    by_contra hne
    obtain ⟨q0, q1, q2, q3, hi⟩ | hi | hi | hi := hidx hne
    · exact hcki q0 q1 q2 q3 hi
    · exact hrx hi
    · exact hup hi
    · exact hcur hi
  have same_inputs : t.inputs = s.inputs := by
    by_contra hne
    exact (hinputs hne).1.elim hrx hup
  refine ⟨same_inputs, ?_, hp.2.trans same_idx.symm⟩
  rw [htable]
  exact hp.1

/-- Settles O60: an illegal word only reports, a receiving command receives the peer's next datagram, and every other
command leaves the inbound half alone. -/
theorem sessionStepsKeepTheInboundPairInStep : Obligations.SessionStepsKeepTheInboundPairInStep := by
  intro s p w hp hr hw hcki hcur
  cases hd : decode w with
  | illegal why => exact ⟨_, step_illegal hr hw hd, by simp, fun _ _ => ⟨rfl, hp, rfl⟩⟩
  | command i =>
    rw [hd] at hcur
    simp only [hd, Decoded.command.injEq, ne_eq] at hcki hcur ⊢
    by_cases hi : i = .rxcheck ∨ i = .update
    · obtain ⟨t, hstep, received, -⟩ := step_receives hi hr hw hd
      refine ⟨t, hstep, fun _ x xs rest hlist => ?_, fun hrx hup => absurd hi (not_or.2 ⟨hrx, hup⟩)⟩
      obtain ⟨hok, hinputs, hin⟩ := received.answer hp (rxEvent_listed hlist).1
      exact ⟨hok, hinputs, hin, by rw [received.rxAnswers, hlist]; rfl⟩
    · obtain ⟨u, he⟩ := exec_next i s
      refine ⟨u.advance, step_command hr hw hd he, fun h => absurd h hi, fun hrx hup => ?_⟩
      obtain ⟨hinputs, hin⟩ := exec_keeps_inbound hrx hup hcki hcur he hp
      obtain ⟨-, hlist⟩ := exec_transport_of_ne_update hup he
      exact ⟨hinputs, hin, hlist hrx⟩

/-! ### A run of receives -/

/-- The events that are no timeouts, in order. -/
def arrivals (events : List RxEvent) : List RxEvent := events.filter fun ev => decide (ev ≠ .timeout)

/-- The block and the peer are in step, and the program receives once per command all of the listed events, among which
the peer's datagrams for `xs` stand in order with nothing but timeouts in between (R188). -/
structure Awaits (s : State) (p : Peer) (xs : List (BitVec 32)) (events rest : List RxEvent) : Prop where
  inStep : s.InboundInStep p
  noReset : s.resetAt = []
  listed : s.rxAnswers = events ++ rest
  datagrams : arrivals events = p.answers xs
  receiving : ∀ k, k < events.length → s.commandAt k .rxcheck ∨ s.commandAt k .update

@[simp] theorem arrivals_timeout_cons (events : List RxEvent) : arrivals (.timeout :: events) = arrivals events := rfl

theorem arrivals_cons {ev : RxEvent} (h : ev ≠ .timeout) (events : List RxEvent) :
    arrivals (ev :: events) = ev :: arrivals events := by
  simp [arrivals, h]

/-- The command `k` words on from the next position is the command `k + 1` words on. -/
theorem commandAt_succ {s t : State} (hprogram : t.program = s.program) (hpc : t.pc = s.pc + 1) (k : Nat) (i : Instr) :
    t.commandAt k i ↔ s.commandAt (k + 1) i := by
  rw [State.commandAt, State.commandAt, hprogram, hpc, Nat.add_assoc, Nat.add_comm 1 k]

/-- The next event is a timeout, which the step reports, or the peer's next datagram, which the step validates and
whose word it stores; either way the rest is awaited from there. -/
theorem Awaits.step {s : State} {p : Peer} {xs : List (BitVec 32)} {ev : RxEvent} {events rest : List RxEvent}
    (h : Awaits s p xs (ev :: events) rest) :
    ∃ t, step s = .next t ∧
      ((ev = .timeout ∧ t.status = .timeout ∧ Awaits t p xs events rest) ∨
        ∃ x ys, xs = x :: ys ∧ ev ≠ .timeout ∧ t.status = .ok ∧ t.inputs = x ∧
          Awaits t (p.afterAnswer x) ys events rest) := by
  obtain ⟨i, hi, w, hw, hd⟩ : ∃ i, (i = .rxcheck ∨ i = .update) ∧ s.commandAt 0 i :=
    (h.receiving 0 (Nat.succ_pos _)).elim (fun hc => ⟨_, .inl rfl, hc⟩) fun hc => ⟨_, .inr rfl, hc⟩
  obtain ⟨t, hstep, received, hprogram, hpc, hreset⟩ := step_receives hi (resetDue_of_resetAt_nil h.noReset) hw hd
  have hev : s.rxEvent = ev := (rxEvent_listed h.listed).1
  have listed : t.rxAnswers = events ++ rest := by rw [received.rxAnswers, h.listed]; rfl
  have receiving : ∀ k, k < events.length → t.commandAt k .rxcheck ∨ t.commandAt k .update := fun k hk => by
    rw [commandAt_succ hprogram hpc, commandAt_succ hprogram hpc]
    exact h.receiving (k + 1) (Nat.succ_lt_succ hk)
  refine ⟨t, hstep, ?_⟩
  by_cases hto : ev = .timeout
  · subst hto
    obtain ⟨hstatus, hin⟩ := received.timeout h.inStep hev
    exact .inl ⟨rfl, hstatus, hin, hreset.trans h.noReset, listed, h.datagrams, receiving⟩
  · have hdata := h.datagrams
    rw [arrivals_cons hto] at hdata
    cases xs with
    | nil => cases hdata
    | cons x ys =>
      obtain ⟨rfl, hys⟩ := List.cons.inj hdata
      obtain ⟨hstatus, hinputs, hin⟩ := received.answer h.inStep hev
      exact .inr ⟨x, ys, rfl, hto, hstatus, hinputs, hin, hreset.trans h.noReset, listed, hys, receiving⟩

/-- After some of the events the rest is awaited, with the peer as it is after as many datagrams as have arrived. -/
theorem Awaits.run {s : State} {p : Peer} {xs : List (BitVec 32)} {before events rest : List RxEvent}
    (h : Awaits s p xs (before ++ events) rest) :
    ∃ t, runsTo before.length s t ∧
      Awaits t (p.afterAnswers (xs.take (arrivals before).length)) (xs.drop (arrivals before).length) events rest := by
  induction before generalizing s p xs with
  | nil => exact ⟨s, rfl, h⟩
  | cons ev before ih =>
    obtain ⟨u, hstep, ⟨rfl, -, hu⟩ | ⟨x, ys, rfl, hto, -, -, hu⟩⟩ := h.step
    · obtain ⟨t, hrun, ht⟩ := ih hu
      exact ⟨t, ⟨u, hstep, hrun⟩, ht⟩
    · obtain ⟨t, hrun, ht⟩ := ih hu
      rw [arrivals_cons hto]
      exact ⟨t, ⟨u, hstep, hrun⟩, ht⟩

theorem runsTo_snoc {n : Nat} {s t u : State} (h : runsTo n s t) (hstep : step t = .next u) : runsTo (n + 1) s u :=
  (runsTo_add n 1 s u).2 ⟨t, h, u, hstep, rfl⟩

/-- After the receive of the event at a position: a timeout's status, or OK with the input word of the datagram that has
arrived and the pair in step with the peer that has sent it. -/
theorem Awaits.receive_at {s : State} {p : Peer} {xs : List (BitVec 32)} {events rest : List RxEvent}
    (h : Awaits s p xs events rest) {k : Nat} (hk : k < events.length) :
    ∃ t, runsTo (k + 1) s t ∧
      ((events[k] = .timeout ∧ t.status = .timeout) ∨
        (events[k] ≠ .timeout ∧ t.status = .ok ∧ xs[(arrivals (events.take k)).length]? = some t.inputs ∧
          t.InboundInStep (p.afterAnswers (xs.take ((arrivals (events.take k)).length + 1))))) := by
  have hsplit : events = events.take k ++ events[k] :: events.drop (k + 1) := by simp
  obtain ⟨u, hrun, hu⟩ := Awaits.run (hsplit ▸ h)
  rw [List.length_take_of_le hk.le] at hrun
  obtain ⟨t, hstep, ⟨hto, hstatus, -⟩ | ⟨x, ys, hxs, hto, hstatus, hinputs, ht⟩⟩ := hu.step
  · exact ⟨t, runsTo_snoc hrun hstep, .inl ⟨hto, hstatus⟩⟩
  · have hx : xs[(arrivals (events.take k)).length]? = some x := by
      rw [← List.head?_drop, hxs]
      rfl
    refine ⟨t, runsTo_snoc hrun hstep, .inr ⟨hto, hstatus, hinputs ▸ hx, ?_⟩⟩
    rw [List.take_add_one, hx, Peer.afterAnswers, List.foldl_append]
    exact ht.inStep

theorem length_answers (p : Peer) (xs : List (BitVec 32)) : (p.answers xs).length = xs.length := by
  induction xs generalizing p with
  | nil => rfl
  | cons x xs ih => exact congrArg (· + 1) (ih _)

/-- No datagram of the peer is a timeout. -/
theorem arrivals_answers (p : Peer) (xs : List (BitVec 32)) : arrivals (p.answers xs) = p.answers xs := by
  induction xs generalizing p with
  | nil => rfl
  | cons x xs ih => exact (arrivals_cons (ev := p.answer x) nofun _).trans (congrArg (p.answer x :: ·) (ih _))

/-- Settles O59: the receive at each position, and the run over all of the events. -/
theorem delayAloneDoesNotDesynchronise : Obligations.DelayAloneDoesNotDesynchronise := by
  intro s p xs events rest hp hr hlist hdata hcmd
  have h : Awaits s p xs events rest := ⟨hp, hr, hlist, hdata, hcmd⟩
  constructor
  · intro k hk
    obtain ⟨t, hrun, ⟨hto, hstatus⟩ | ⟨hto, hstatus, hinputs, -⟩⟩ := h.receive_at hk
    · exact ⟨t, hrun, by rw [if_pos hto, hstatus], fun hne => absurd hto hne⟩
    · exact ⟨t, hrun, by rw [if_neg hto, hstatus], fun _ => hinputs⟩
  · obtain ⟨t, hrun, ht⟩ := Awaits.run (before := events) (events := []) (by rwa [List.append_nil])
    have hin := ht.inStep
    rw [h.datagrams, length_answers, List.take_length] at hin
    exact ⟨t, hrun, hin⟩

/-- Settles O57: with no timeouts in between, the `k`-th event is the datagram of the `k`-th word. -/
theorem everyDatagramOfThePeerValidates : Obligations.EveryDatagramOfThePeerValidates := by
  intro s p xs rest hp hr hlist hcmd k hk
  have h : Awaits s p xs (p.answers xs) rest :=
    ⟨hp, hr, hlist, arrivals_answers p xs, by rwa [length_answers]⟩
  have hk' : k < (p.answers xs).length := by rwa [length_answers]
  have none_late : ∀ ev ∈ p.answers xs, decide (ev ≠ .timeout) = true := List.filter_eq_self.1 (arrivals_answers p xs)
  have arrived : (arrivals ((p.answers xs).take k)).length = k := by
    rw [arrivals, List.filter_eq_self.2 fun ev hev => none_late ev (List.mem_of_mem_take hev),
      List.length_take_of_le hk'.le]
  obtain ⟨t, hrun, ⟨hto, -⟩ | ⟨-, hstatus, hinputs, hin⟩⟩ := h.receive_at hk'
  · exact absurd hto (of_decide_eq_true (none_late _ (List.getElem_mem hk')))
  · rw [arrived] at hinputs hin
    rw [List.getElem?_eq_getElem hk, Option.some_inj] at hinputs
    exact ⟨t, hrun, hstatus, hinputs.symm, hin⟩

end Sys2Proof.Laws
end

section
/-! PROOFS. The block at rest and the answer of every step (spec 60_exceptions.md R160, R172, 70_reset_and_hazards.md
R190). -/

namespace Sys2Proof.Laws

open Sys2Proof.Machine

/-- Settles O12: past the program's last word no word is at the runner's position. -/
theorem idleBlockKeepsAllItsState : Obligations.IdleBlockKeepsAllItsState :=
  fun s hr hle => step_idle hr ((currentWord_eq_none_iff s).2 hle)

/-- Settles O13: a step takes a due reset, runs the word at the position, or is idle, and each answers a next state. -/
theorem everyStepAnswersANextState : Obligations.EveryStepAnswersANextState := by
  intro s
  cases hr : s.resetDue with
  | true => exact ⟨s.takeReset, step_reset hr⟩
  | false =>
    rcases Nat.lt_or_ge s.pc s.program.length with hlt | hle
    · obtain ⟨t, hstep, -⟩ := step_at_word hr hlt
      exact ⟨t, hstep⟩
    · exact ⟨s, idleBlockKeepsAllItsState s hr hle⟩

end Sys2Proof.Laws
end

section
/-! PROOFS. Reset (spec 70_reset_and_hazards.md R180, R181): the step that takes it, the command requested with it, and
the state after it. -/

namespace Sys2Proof.Laws

open Sys2Proof.Machine

/-- Settles O15: the step of a due reset is `State.takeReset`. -/
theorem resetSetsEveryElement : Obligations.ResetSetsEveryElement :=
  fun s hr => ⟨s.takeReset, step_reset hr, takeReset_idxOut s, takeReset_idxIn s, takeReset_outputs s,
    takeReset_inputs s, takeReset_analogScale s, takeReset_status s, takeReset_senderr s, takeReset_rdata s,
    takeReset_txValid s, takeReset_txData s, takeReset_table s⟩

/-- Settles O16: a due reset is the head of the list of requests, and only the tail of that list is left. -/
theorem resetLeavesTheRunnerAndTheTransportAlone : Obligations.ResetLeavesTheRunnerAndTheTransportAlone := by
  intro s t hr h
  obtain rfl : s.takeReset = t := Host.Outcome.next.inj ((step_reset hr).symm.trans h)
  obtain ⟨p, rest, hreq, -⟩ := (resetDue_iff s).1 hr
  have hleft : s.takeReset.resetAt = rest := by rw [takeReset_resetAt, hreq, List.tail_cons]
  refine ⟨takeReset_program s, takeReset_pc s, ?_, takeReset_sendAnswers s, takeReset_sendDraws s,
    takeReset_rxAnswers s, takeReset_rxDraws s, ?_⟩
  · rw [hleft, hreq, List.head?_cons, Option.toList_some, List.singleton_append]
  · rw [hleft, hreq, List.length_cons]
    exact Nat.lt_succ_self _

/-- Settles O18: the single request is due, and once it is used up the word at the unmoved position runs from the reset
state. -/
theorem resetIsTakenBeforeASimultaneousCommand : Obligations.ResetIsTakenBeforeASimultaneousCommand := by
  intro s t w i p hreq hle hw hd he
  have reset : step s = .next s.takeReset := step_reset ((resetDue_iff s).2 ⟨p, [], hreq, hle⟩)
  have used : s.takeReset.resetDue = false :=
    resetDue_of_resetAt_nil (by rw [takeReset_resetAt, hreq, List.tail_cons])
  have command : step s.takeReset = .next t.advance := step_command used hw hd he
  exact ⟨reset, s.takeReset, reset, t.advance, command, rfl⟩

/-- Settles O20: the reset state holds the empty program and table, and its ports are as a report of OK and 0 drives
them. -/
theorem resetMeetsTheInvariant : Obligations.ResetMeetsTheInvariant :=
  inv_report_ok (s := State.reset) rfl (Nat.zero_le _)

end Sys2Proof.Laws
end
